-- ==== Sys2Proof/Word.lean ====
section
/-! DEFINITION. The word types of occurec-proto: bytes, register addresses, the two forms of a mask operand and the five
on-screen-display operations (spec 00_scope.md R5, R6; 10_state.md R11; 30_encoding.md R76, R80). -/

namespace Sys2Proof

/-- A byte: "every byte is an unsigned 8-bit value" (R6); `BYTE_W` = 8 (R5). -/
abbrev Byte := BitVec 8

/-- A camera register address; `ADDR_W` = 16 (R5). -/
abbrev Addr := BitVec 16

/-- The mask operand of a register command: "masks either as a byte or as a quoted pattern" (R76, R91). -/
inductive MaskOperand where
  /-- The mask as a byte, the form the encoder's port takes (R27). -/
  | byte (mask : Byte)
  /-- The mask as text, converted by the front end (R93) before the encoder sees it. -/
  | pattern (text : List Char)
deriving DecidableEq, Repr

/-- The operand of an on-screen-display command (R11, R80). -/
inductive OsdOp where
  | left
  | right
  | up
  | down
  | set
deriving DecidableEq, Repr

end Sys2Proof
end

