-- ==== Sys2Proof/Config.lean ====
section
/-! DEFINITION. The parameters of the block (spec 00_scope.md R5): the two that change what the block does are the fields of
`Config`; the others are constants that no rule of the block depends on. -/

namespace Sys2Proof

/-- `ADDR_POLICY`: what the encoder does with an address outside 0x0400 to 0x05FF (R96, D14). -/
inductive AddrPolicy where
  /-- Apply the address formula to all 65536 addresses. -/
  | formula
  /-- Produce no frame and report `AddressRange`. -/
  | refuse
deriving DecidableEq, Repr

/-- The parameters that change the block's behaviour. They stand in `State` so that every statement about every state
covers every configuration; no step writes them (notes/assumptions/1.md). -/
structure Config where
  /-- `LOG_DEPTH`: the capacity of the byte log, `none` for the unbounded log of the model (R5, R21, D12). -/
  logDepth : Option Nat
  /-- `ADDR_POLICY` (R5, R96). -/
  addrPolicy : AddrPolicy
deriving DecidableEq, Repr

/-- The values R5 gives for the model: an unbounded log and the address formula. -/
def Config.standard : Config := { logDepth := none, addrPolicy := .formula }

/-- R5: "any implementation value >= 3" for a bounded log. -/
def Config.wf (c : Config) : Bool :=
  match c.logDepth with
  | none => true
  | some depth => decide (3 ≤ depth)

/-- `FRAME_LEN` (R5). -/
def Config.frameLen : Nat := 8

/-- `OSD_IS_READ`: the flag with which the host arms an on-screen-display exchange (R5, R110, D17). -/
def Config.osdIsRead : Bool := false

/-- `TIMEOUT_MS`, informative: "about 1000" (R5, R162, D25). -/
def Config.timeoutMs : Nat := 1000

/-- `POLL_MS`, informative: "about 1" (R5, R162, D25). -/
def Config.pollMs : Nat := 1

/-- `BAUD` of the transport, which is outside the block (R5, R168). -/
def Config.baud : Nat := 57600

end Sys2Proof
end

