-- ==== Sys2Proof/Syntax.lean ====
section
/-! DEFINITION. The instructions: one constructor for every row of spec/opcode_table.json (encoder commands, received
tokens, recognizer events and the mask conversion; mnemonics of 30_encoding.md R76). -/

namespace Sys2Proof

/-- The commands, tokens and events of the block. -/
inductive Instr where
  /-- `WRREG address, mask, value` (R91). -/
  | wrreg (address : Addr) (mask : MaskOperand) (value : Byte)
  /-- `RDREG address, mask, value` (R92). -/
  | rdreg (address : Addr) (mask : MaskOperand) (value : Byte)
  /-- `OSD_LEFT` (R111). -/
  | osdLeft
  /-- `OSD_RIGHT` (R112). -/
  | osdRight
  /-- `OSD_UP` (R113). -/
  | osdUp
  /-- `OSD_DOWN` (R114). -/
  | osdDown
  /-- `OSD_SET` (R115). -/
  | osdSet
  /-- `T_INPROC`: the received byte 0x45 (R72, R124). -/
  | tInproc
  /-- `T_SUCCESS`: the received byte 0x55 (R72, R125). -/
  | tSuccess
  /-- `T_CAMTIMEOUT`: the received byte 0x54 (R72, R122). -/
  | tCamtimeout
  /-- `T_FAIL`: the received byte 0x46 (R72, R122). -/
  | tFail
  /-- `T_DISCONN`: the received byte 0x44 (R72, R122). -/
  | tDisconn
  /-- `T_COMMSFAIL`: the received byte 0x43 (R72, R122). -/
  | tCommsfail
  /-- `FEED b`: any received byte (R123 to R128, R130). -/
  | feed (b : Byte)
  /-- `ARM is_read, cmd_id` (R121); the tag is opaque, "model: any type" (R5, R15). -/
  | arm (isRead : Bool) (cmdId : Nat)
  /-- `TIMEOUT` (R129). -/
  | timeout
  /-- `PARSEMASK "pattern"` (R93). -/
  | parsemask (pattern : List Char)
deriving DecidableEq, Repr

end Sys2Proof
end

