-- ==== Sys2Proof/WellFormed.lean ====
section
/-! DEFINITION. Which instructions are the ones an encoding on the link names: the checks are written from R77, R94/R96 and
R72 with the spec's own literals, apart from the decoder's. An instruction that fails a check still has its meaning; it is
only not what the decoder of its own encoding gives back (notes/assumptions/12.md). -/

namespace Sys2Proof

/-- R77: a mask pattern is well formed when it matches `^[01]{4} ?[01]{4}$`. -/
def patternWellFormed (text : List Char) : Bool :=
  let digits (cs : List Char) : Bool := cs.all fun c => c == '0' || c == '1'
  match text with
  | [a, b, c, d, e, f, g, h] => digits [a, b, c, d, e, f, g, h]
  | [a, b, c, d, sep, e, f, g, h] => sep == ' ' && digits [a, b, c, d, e, f, g, h]
  | _ => false

/-- A byte mask has no ill-formed value; a textual mask follows R77. -/
def MaskOperand.wellFormed : MaskOperand → Bool
  | .byte _ => true
  | .pattern text => patternWellFormed text

/-- R96: "A claim about a register command should carry the premise `0x0400 <= address <= 0x05FF`". -/
def addrWellFormed (address : Addr) : Bool :=
  decide (0x0400 ≤ address.toNat) && decide (address.toNat ≤ 0x05FF)

/-- The six token values of R72. -/
def isTokenValue (b : Byte) : Bool :=
  [0x45#8, 0x55#8, 0x54#8, 0x46#8, 0x44#8, 0x43#8].contains b

/-- The instruction is the one its own encoding names. -/
def Instr.wellFormed : Instr → Bool
  | .wrreg address mask _ => addrWellFormed address && mask.wellFormed
  | .rdreg address mask _ => addrWellFormed address && mask.wellFormed
  | .osdLeft => true
  | .osdRight => true
  | .osdUp => true
  | .osdDown => true
  | .osdSet => true
  | .tInproc => true
  | .tSuccess => true
  | .tCamtimeout => true
  | .tFail => true
  | .tDisconn => true
  | .tCommsfail => true
  | .feed b => !isTokenValue b
  | .arm _ _ => true
  | .timeout => true
  | .parsemask text => patternWellFormed text

end Sys2Proof
end

