-- ==== Sys2Proof/Decode.lean ====
section
/-! DEFINITION. What arrives at the block and how it is read. The frame and its 64-bit view (30_encoding.md R60, R61), the
stimuli at the input ports (10_state.md R27), the decoder (R70, R97, R72, R80, R157; total, rejecting by name), and after it
the encoder, written from the patterns of spec/opcode_table.json and not from the pseudocode that `Machine/Encoder.lean`
follows. -/

namespace Sys2Proof

/-! ## Constants of the wire format -/

/-- Frame byte 1 (R60). -/
abbrev sohByte : Byte := 0xFE

/-- The status constant before MSB stripping (R69). -/
abbrev statusFull : Byte := 0xAA

/-- `PAGE1_BASE`: the first address whose address-high is 1 (R64). -/
abbrev page1Base : Addr := 0x0500

/-- `ADDR_LO` (R5). -/
abbrev addrLo : Addr := 0x0400

/-- `ADDR_HI` (R5). -/
abbrev addrHi : Addr := 0x05FF

/-- The in-process token (R72). -/
def tokInproc : Byte := 0x45

/-- The success token (R72). -/
def tokSuccess : Byte := 0x55

/-- The camera-timeout token (R72). -/
def tokCamtimeout : Byte := 0x54

/-- The generic failure token (R72). -/
def tokFail : Byte := 0x46

/-- The camera-disconnected token (R72). -/
def tokDisconn : Byte := 0x44

/-- The comms-fail token (R72). -/
def tokCommsfail : Byte := 0x43

/-! ## Bits of a byte -/

/-- Bit 7 of a byte, the bit MSB stripping removes (R63). -/
def bit7 (x : Byte) : Bool := x.getLsbD 7

/-- The 7 low bits that stay in the field's own byte (R63). -/
def strip7 (x : Byte) : Byte := x &&& 0x7F

/-- A field's byte with its relocated bit restored: `F | (bit << 7)` (R97). -/
def restore7 (low : Byte) (msb : Bool) : Byte := low ||| ((BitVec.ofBool msb).setWidth 8 <<< 7)

/-! ## The frame -/

/-- A frame: eight bytes in the order in which they are sent (R45, R60). -/
structure Frame where
  /-- `F[1]`. -/
  soh : Byte
  /-- `F[2]`. -/
  hbr : Byte
  /-- `F[3]`. -/
  msk : Byte
  /-- `F[4]`. -/
  adh : Byte
  /-- `F[5]`. -/
  adl : Byte
  /-- `F[6]`. -/
  dat : Byte
  /-- `F[7]`. -/
  csm : Byte
  /-- `F[8]`. -/
  sta : Byte
deriving DecidableEq, Repr

/-- The bytes of a frame in sending order, `F[1]` first (R45). -/
def Frame.bytes (f : Frame) : List Byte := [f.soh, f.hbr, f.msk, f.adh, f.adl, f.dat, f.csm, f.sta]

/-- Eight bytes in sending order read as a frame (R60: "A frame is exactly 8 bytes"). -/
def frameOfBytes : List Byte → Option Frame
  | [f1, f2, f3, f4, f5, f6, f7, f8] => some ⟨f1, f2, f3, f4, f5, f6, f7, f8⟩
  | _ => none

/-- The 64-bit view: `F[1]` in bits 63:56 down to `F[8]` in bits 7:0 (R61). -/
def Frame.word64 (f : Frame) : BitVec 64 :=
  f.soh ++ f.hbr ++ f.msk ++ f.adh ++ f.adl ++ f.dat ++ f.csm ++ f.sta

/-- The frame of a 64-bit value in the view of R61. -/
def frameOfWord64 (w : BitVec 64) : Frame :=
  { soh := w.extractLsb' 56 8, hbr := w.extractLsb' 48 8, msk := w.extractLsb' 40 8, adh := w.extractLsb' 32 8,
    adl := w.extractLsb' 24 8, dat := w.extractLsb' 16 8, csm := w.extractLsb' 8 8, sta := w.extractLsb' 0 8 }

/-! ## What arrives at the input ports -/

/-- The encoder's operand ports (R27). -/
structure EncPorts where
  /-- `enc_address`. -/
  address : Addr
  /-- `enc_mask`. -/
  mask : Byte
  /-- `enc_value`. -/
  value : Byte
  /-- `enc_is_read`. -/
  isRead : Bool
  /-- `enc_osd_sel`: 1 selects the command of `enc_osd_op`. -/
  osdSel : Bool
  /-- `enc_osd_op` (R80). -/
  osdOp : BitVec 3
deriving DecidableEq, Repr

/-- One sampling of the three strobes and their arguments (R27). -/
structure Strobes where
  /-- `rx_valid`: the event `FEED(rx_byte)`. -/
  rxValid : Bool
  /-- `rx_byte`. -/
  rxByte : Byte
  /-- `timeout`: the event `TIMEOUT`. -/
  timeout : Bool
  /-- `arm`: the event `ARM(arm_is_read, arm_cmd_id)`. -/
  arm : Bool
  /-- `arm_is_read`. -/
  armIsRead : Bool
  /-- `arm_cmd_id`. -/
  armCmdId : Nat
deriving DecidableEq, Repr

/-- A sampling with no strobe active and every argument zero. -/
def Strobes.none : Strobes :=
  { rxValid := false, rxByte := 0, timeout := false, arm := false, armIsRead := false, armCmdId := 0 }

/-- One thing the host or the environment presents to the block. -/
inductive Stimulus where
  /-- A command named by its frame, `F[1]` first (R61, R70; notes/assumptions/4.md). -/
  | frame (bytes : List Byte)
  /-- Operands presented to the encoder (R27). -/
  | operands (ports : EncPorts)
  /-- A register command whose mask is text: the source's `buildReadWrite(address, maskPattern, value, isRead)` (R76). -/
  | textCommand (address : Addr) (pattern : List Char) (value : Byte) (isRead : Bool)
  /-- A pattern given to the text front end (R93). -/
  | text (pattern : List Char)
  /-- One sampling of the recognizer's strobes (R27, R157). -/
  | strobes (sample : Strobes)
deriving DecidableEq, Repr

/-! ## Decoding -/

/-- Why the decoder rejects a stimulus. -/
inductive DecodeError where
  /-- Not exactly 8 bytes (R60). -/
  | notEightBytes
  /-- `F[1]` is not 0xFE (R97). -/
  | startByte
  /-- `F[2]` has bit 7 or bit 5 set (R97, R74). -/
  | headerReservedBit
  /-- `F[2]` has bit 0 clear (R97, R74). -/
  | headerStatusBit
  /-- Bit 7 is set in `F[3]`, `F[5]`, `F[6]` or `F[7]` (R97). -/
  | unstrippedByte
  /-- `F[4]` is neither 0x00 nor 0x01, and the frame is no literal (R97). -/
  | pageByte
  /-- `F[8]` is not 0x2A (R97). -/
  | statusByte
  /-- `F[7]` and `F[2]` bit 1 are not the checksum of `F[4]`, `F[5]` and `F[6]` (R97). -/
  | checksum
  /-- `enc_osd_op` is 0, 6 or 7 (R80, R110). -/
  | osdOperation
  /-- No strobe is active: nothing happens in this sample. -/
  | noStrobe
deriving DecidableEq, Repr

/-- The literal frames as 64-bit values (R111 to R115). -/
def osdWord : OsdOp → BitVec 64
  | .left => 0xFE4100020001032A
  | .right => 0xFE4100020002042A
  | .up => 0xFE4100020003052A
  | .down => 0xFE4100020004062A
  | .set => 0xFE4100020005072A

/-- The operands a register-command frame carries (R97). -/
structure RegCommand where
  /-- 1 for a read. -/
  isRead : Bool
  /-- The register address, in 0x0400 to 0x05FF. -/
  address : Addr
  /-- The mask byte. -/
  mask : Byte
  /-- The value byte. -/
  value : Byte
deriving DecidableEq, Repr

/-- The address of a frame: `0x0400 + (F[4] << 8) + (F[2][3] << 7) + F[5]` (R97). -/
def frameAddress (f : Frame) : Addr :=
  0x0400 + (f.adh.setWidth 16 <<< 8) + ((BitVec.ofBool (f.hbr.getLsbD 3)).setWidth 16 <<< 7) + f.adl.setWidth 16

/-- `decodeReg(F)` (R97). -/
def decodeReg (f : Frame) : Except DecodeError RegCommand :=
  if f.soh ≠ sohByte then .error .startByte
  else if f.hbr.getLsbD 7 || f.hbr.getLsbD 5 then .error .headerReservedBit
  else if !f.hbr.getLsbD 0 then .error .headerStatusBit
  else if bit7 f.msk || bit7 f.adl || bit7 f.dat || bit7 f.csm then .error .unstrippedByte
  else if f.adh ≠ 0x00 ∧ f.adh ≠ 0x01 then .error .pageByte
  else if f.sta ≠ 0x2A then .error .statusByte
  else if f.adh + f.adl + f.dat ≠ restore7 f.csm (f.hbr.getLsbD 1) then .error .checksum
  else .ok { isRead := f.hbr.getLsbD 6, address := frameAddress f,
             mask := restore7 f.msk (f.hbr.getLsbD 4), value := restore7 f.dat (f.hbr.getLsbD 2) }

/-- The register command as an instruction; the mask of a frame is a byte. -/
def RegCommand.instr (c : RegCommand) : Instr :=
  if c.isRead then .rdreg c.address (.byte c.mask) c.value else .wrreg c.address (.byte c.mask) c.value

/-- The command a frame names, tested in the order of R70: the five literals first, then the register commands. -/
def decodeFrame (f : Frame) : Except DecodeError Instr :=
  if f.word64 = osdWord .left then .ok .osdLeft
  else if f.word64 = osdWord .right then .ok .osdRight
  else if f.word64 = osdWord .up then .ok .osdUp
  else if f.word64 = osdWord .down then .ok .osdDown
  else if f.word64 = osdWord .set then .ok .osdSet
  else match decodeReg f with
    | .ok c => .ok c.instr
    | .error e => .error e

/-- The command any list of bytes names, or why it names none. -/
def decodeBytes (bytes : List Byte) : Except DecodeError Instr :=
  match frameOfBytes bytes with
  | some f => decodeFrame f
  | none => .error .notEightBytes

/-- A received byte: one of the six tokens of R72, or any other byte. -/
def decodeRx (b : Byte) : Instr :=
  if b = tokInproc then .tInproc
  else if b = tokSuccess then .tSuccess
  else if b = tokCamtimeout then .tCamtimeout
  else if b = tokFail then .tFail
  else if b = tokDisconn then .tDisconn
  else if b = tokCommsfail then .tCommsfail
  else .feed b

/-- `enc_osd_op`: 1 to 5 name the operations, 0, 6 and 7 none (R80). -/
def decodeOsdOp (op : BitVec 3) : Option OsdOp :=
  if op = 1 then some .left
  else if op = 2 then some .right
  else if op = 3 then some .up
  else if op = 4 then some .down
  else if op = 5 then some .set
  else none

/-- The instruction of an on-screen-display operation. -/
def osdInstr : OsdOp → Instr
  | .left => .osdLeft
  | .right => .osdRight
  | .up => .osdUp
  | .down => .osdDown
  | .set => .osdSet

/-- The command the operand ports name (R27: `enc_osd_sel` chooses between the two kinds). -/
def decodeOperands (p : EncPorts) : Except DecodeError Instr :=
  if p.osdSel then
    match decodeOsdOp p.osdOp with
    | some op => .ok (osdInstr op)
    | none => .error .osdOperation
  else if p.isRead then .ok (.rdreg p.address (.byte p.mask) p.value)
  else .ok (.wrreg p.address (.byte p.mask) p.value)

/-- The first event of a sampling: strobes active together are applied in the order `FEED`, `TIMEOUT`, `ARM` (R157). -/
def decodeStrobes (p : Strobes) : Except DecodeError Instr :=
  if p.rxValid then .ok (decodeRx p.rxByte)
  else if p.timeout then .ok .timeout
  else if p.arm then .ok (.arm p.armIsRead p.armCmdId)
  else .error .noStrobe

/-- The sampling with its first active strobe taken (R157). -/
def Strobes.rest (p : Strobes) : Strobes :=
  if p.rxValid then { p with rxValid := false }
  else if p.timeout then { p with timeout := false }
  else { p with arm := false }

/-- The decoder: the instruction a stimulus asks for first, or why it asks for none. -/
def decode : Stimulus → Except DecodeError Instr
  | .frame bytes => decodeBytes bytes
  | .operands p => decodeOperands p
  | .textCommand address pattern value isRead =>
    if isRead then .ok (.rdreg address (.pattern pattern) value) else .ok (.wrreg address (.pattern pattern) value)
  | .text pattern => .ok (.parsemask pattern)
  | .strobes p => decodeStrobes p

/-- What is left of a stimulus once its first instruction is taken: the strobes of the same sampling still to be applied
(R157), nothing otherwise. -/
def remaining : Stimulus → List Stimulus
  | .frame _ => []
  | .operands _ => []
  | .textCommand _ _ _ _ => []
  | .text _ => []
  | .strobes p => if p.rest.rxValid || p.rest.timeout || p.rest.arm then [.strobes p.rest] else []

/-! ## Encoding -/

/-- The `WRREG` and `RDREG` rows of spec/opcode_table.json, field by field from bit 63 down:
`11111110 0r0MAVC1 0mmmmmmm 0000000p 0aaaaaaa 0vvvvvvv 0ccccccc 00101010`, where `C:c` is the checksum `p + a + v`. -/
def regWord (isRead : Bool) (address : Addr) (mask value : Byte) : BitVec 64 :=
  let p := BitVec.ofBool (!decide (address < page1Base))
  let a := address.extractLsb' 0 7
  let v := value.extractLsb' 0 7
  let c := p.setWidth 8 + a.setWidth 8 + v.setWidth 8
  0b11111110#8
    ++ 0#1 ++ BitVec.ofBool isRead ++ 0#1 ++ mask.extractLsb' 7 1 ++ address.extractLsb' 7 1 ++ value.extractLsb' 7 1
    ++ c.extractLsb' 7 1 ++ 1#1
    ++ 0#1 ++ mask.extractLsb' 0 7
    ++ 0#7 ++ p
    ++ 0#1 ++ a
    ++ 0#1 ++ v
    ++ 0#1 ++ c.extractLsb' 0 7
    ++ 0b00101010#8

/-- The stimulus that carries a 64-bit frame value. -/
def frameStimulus (w : BitVec 64) : Stimulus := .frame (frameOfWord64 w).bytes

/-- The stimulus of one received byte. -/
def rxStimulus (b : Byte) : Stimulus := .strobes { Strobes.none with rxValid := true, rxByte := b }

/-- The encoder: the words of an instruction on the channel its table row names (formats `frame64`, `frame64-literal`,
`token8`, `rx-byte8`, `host-event`, `text-pattern`; R76). A register command with a textual mask has no frame of its own
before the text is converted; it is the call of R76. -/
def encode : Instr → Stimulus
  | .wrreg address (.byte mask) value => frameStimulus (regWord false address mask value)
  | .wrreg address (.pattern text) value => .textCommand address text value false
  | .rdreg address (.byte mask) value => frameStimulus (regWord true address mask value)
  | .rdreg address (.pattern text) value => .textCommand address text value true
  | .osdLeft => frameStimulus (osdWord .left)
  | .osdRight => frameStimulus (osdWord .right)
  | .osdUp => frameStimulus (osdWord .up)
  | .osdDown => frameStimulus (osdWord .down)
  | .osdSet => frameStimulus (osdWord .set)
  | .tInproc => rxStimulus tokInproc
  | .tSuccess => rxStimulus tokSuccess
  | .tCamtimeout => rxStimulus tokCamtimeout
  | .tFail => rxStimulus tokFail
  | .tDisconn => rxStimulus tokDisconn
  | .tCommsfail => rxStimulus tokCommsfail
  | .feed b => rxStimulus b
  | .arm isRead cmdId => .strobes { Strobes.none with arm := true, armIsRead := isRead, armCmdId := cmdId }
  | .timeout => .strobes { Strobes.none with timeout := true }
  | .parsemask text => .text text

/-! ## Numbered words -/

/-- `n` bytes of a number, the most significant first. -/
def bytesOfNat : Nat → Nat → List Byte
  | 0, _ => []
  | n + 1, w => BitVec.ofNat 8 (w / 256 ^ n) :: bytesOfNat n w

/-- The stimulus an opcode-table word stands for. The table numbers a frame as one 64-bit word with `F[1]` in bits 63:56
(R61); an 8-bit word is a received byte, whatever row it was taken from (R76: `ARM` and `TIMEOUT` "have no encoding on the
link"); a shorter word is the strobe of a host event, read as `arm` (notes/assumptions/5.md, notes/assumptions/6.md). -/
def stimulusOfWord (nbits w : Nat) : Stimulus :=
  if nbits = 8 then rxStimulus (BitVec.ofNat 8 w)
  else if nbits < 8 then .strobes { Strobes.none with arm := w % 2 == 1 }
  else .frame (bytesOfNat (nbits / 8) w)

/-- The instruction the decoder reads from an opcode-table word. -/
def decodeTableWord (nbits w : Nat) : Option Instr :=
  match decode (stimulusOfWord nbits w) with
  | .ok i => some i
  | .error _ => none

end Sys2Proof
end

