-- ==== Sys2Proof/Machine/State.lean ====
section
/-! DEFINITION. The state of the block (10_state.md R10 to R23), the model's own fields beside it, the reset state (R28), and
the reasons a step can stop. -/

namespace Sys2Proof.Machine

/-- `st`, the recognizer's sequence position: exactly four values (R13). -/
inductive SeqState where
  | awaitingAck
  | awaitingResult
  | awaitingPayload
  | complete
deriving DecidableEq, Repr

/-- `err`, the error code (R18, R151); the values 5 to 7 are never written and do not exist here. -/
inductive ErrCode where
  | none
  | disconnected
  | comms
  | protocol
  | timeout
deriving DecidableEq, Repr

/-- The complete architectural state of the block (R10). -/
structure Recognizer where
  /-- R13. -/
  st : SeqState
  /-- R14. -/
  armedIsRead : Bool
  /-- R15: an opaque tag, "model: any type" (R5; notes/assumptions/7.md). -/
  cmdId : Nat
  /-- R16. -/
  success : Bool
  /-- R18. -/
  err : ErrCode
  /-- R19. -/
  errByte : Option Byte
  /-- R20. -/
  payload : Option Byte
  /-- R21: oldest first. -/
  log : List Byte
  /-- R22. -/
  logOvf : Bool
  /-- R23. -/
  spurious : Bool
deriving DecidableEq, Repr

/-- Why the encoder produces no frame (R27 `enc_valid` = 0). -/
inductive EncRefusal where
  /-- `enc_osd_op` is 0, 6 or 7 (R110). -/
  | osdOperation
  /-- The address is outside 0x0400 to 0x05FF and `ADDR_POLICY` is `refuse` (R96). -/
  | addressRange
deriving DecidableEq, Repr

/-- What the encoder's output ports show for the operands last presented (R12, R27). -/
inductive EncOut where
  /-- No operands have been presented yet (notes/assumptions/3.md). -/
  | idle
  /-- `enc_valid` = 1 and `enc_frame`. -/
  | frame (f : Frame)
  /-- `enc_valid` = 0. -/
  | refused (why : EncRefusal)
deriving DecidableEq, Repr

/-- What the text front end last answered its caller (R93, R98). -/
inductive TextOut where
  /-- No text has been given yet (notes/assumptions/3.md). -/
  | idle
  /-- The mask byte of a well-formed pattern. -/
  | mask (m : Byte)
  /-- `refuse FormatError`. -/
  | formatError
deriving DecidableEq, Repr

/-- The machine: the block's state and the model's own fields beside it. -/
structure State where
  /-- The architectural state (R10). -/
  recog : Recognizer
  /-- The encoder's output ports: a function of the operands last presented, read by no step (notes/assumptions/3.md). -/
  encOut : EncOut
  /-- The front end's last answer, read by no step (notes/assumptions/3.md). -/
  textOut : TextOut
  /-- The stimuli at the input ports not taken yet, oldest first: the host's and the environment's free choice
  (notes/assumptions/2.md). -/
  inputs : List Stimulus
  /-- The parameters of R5, written by no step (notes/assumptions/1.md). -/
  cfg : Config
deriving DecidableEq, Repr

/-- The machine never faults: "There is no trap mechanism" (R150), and the recognizer "never faults, never blocks and never
refuses" (R133). So no constructor exists; nobody raises one, and that is safe. -/
inductive Fault where
deriving DecidableEq, Repr

/-- Why a step gives no meaning to what it found. -/
inductive Refusal where
  /-- Raised by `exec` for an instruction without a meaning; no arm raises it now. Safe. -/
  | notModelled (mnemonic : String)
  /-- Raised by `step` for bytes that name no command: a frame the encoder cannot produce, which a model "must `refuse`"
  (93_implementation_defined.md U11). Safe. -/
  | notACommand (why : DecodeError)
deriving DecidableEq, Repr

/-- The reset values of R28. -/
def Recognizer.reset : Recognizer :=
  { st := .complete, armedIsRead := false, cmdId := 0, success := false, err := .none, errByte := .none,
    payload := .none, log := [], logOvf := false, spurious := false }

/-- The machine right after reset (R28, R180): nothing presented yet, the parameters R5 gives for the model. -/
def State.reset : State :=
  { recog := Recognizer.reset, encOut := .idle, textOut := .idle, inputs := [], cfg := Config.standard }

end Sys2Proof.Machine
end

