-- ==== Sys2Proof/Machine/Operands.lean ====
section
/-! DEFINITION. The operands of the encoder: the textual mask pattern (30_encoding.md R77, 40_regcmd.md R93) and the address
range with its policy (R96). -/

namespace Sys2Proof.Machine

/-- A binary digit of a pattern (R77). -/
def binaryDigit (c : Char) : Option Bool :=
  if c = '0' then some false else if c = '1' then some true else none

/-- The digits of a text, first to last, if every character is one. -/
def binaryDigits : List Char → Option (List Bool)
  | [] => some []
  | c :: cs =>
    match binaryDigit c, binaryDigits cs with
    | some d, some ds => some (d :: ds)
    | _, _ => none

/-- The sum over `i` in 0..7 of `d[i] << (7 - i)`: "first digit is bit 7, last digit is bit 0" (R93, R47). -/
def maskOfDigits : List Bool → Byte
  | [] => 0
  | d :: ds => ((BitVec.ofBool d).setWidth 8 <<< ds.length) ||| maskOfDigits ds

/-- The eight digit characters of a pattern, the optional space between the nibbles dropped (R77, R93, D15). -/
def digitChars (text : List Char) : Option (List Char) :=
  match text with
  | [a, b, c, d, e, f, g, h] => some [a, b, c, d, e, f, g, h]
  | [a, b, c, d, sep, e, f, g, h] => if sep = ' ' then some [a, b, c, d, e, f, g, h] else none
  | _ => none

/-- `PARSEMASK` as a function: the mask byte, or nothing where the spec says `refuse FormatError` (R93). -/
def parseMask (text : List Char) : Option Byte :=
  match digitChars text with
  | none => none
  | some cs =>
    match binaryDigits cs with
    | none => none
    | some ds => some (maskOfDigits ds)

/-- The front end's answer to a text (R93, R98). -/
def textAnswer (text : List Char) : TextOut :=
  match parseMask text with
  | some m => .mask m
  | none => .formatError

/-- The range 0x0400 to 0x05FF the source states properties for (R5, R96). -/
def addrInRange (address : Addr) : Bool := decide (addrLo ≤ address) && decide (address ≤ addrHi)

/-- Whether the encoder takes an address under a policy (R96). -/
def addrAccepted (policy : AddrPolicy) (address : Addr) : Bool :=
  match policy with
  | .formula => true
  | .refuse => addrInRange address

end Sys2Proof.Machine
end

