-- ==== Sys2Proof/Machine/Encoder.lean ====
section
/-! DEFINITION. The Packet Encoder as functions of its operands: `encodeReg` (40_regcmd.md R90) and the table of the literal
on-screen-display frames (41_osd.md R110 to R115), written byte by byte from those rules. -/

namespace Sys2Proof.Machine

/-- `adh = 0x00 if address < 0x0500 else 0x01` (R64). -/
def pageByte (address : Addr) : Byte := if address < page1Base then 0x00 else 0x01

/-- `cs_full`: the checksum over the page byte and the already stripped address and value bytes (R68, C2). -/
def checksumFull (address : Addr) (value : Byte) : Byte :=
  pageByte address + strip7 (address.setWidth 8) + strip7 value

/-- A bit moved to position `n` of the header byte. -/
def headerBit (b : Bool) (n : Nat) : Byte := (BitVec.ofBool b).setWidth 8 <<< n

/-- The header byte of a register command (R62). -/
def headerByte (isRead : Bool) (address : Addr) (mask value : Byte) : Byte :=
  headerBit isRead 6 ||| headerBit (bit7 mask) 4 ||| headerBit (bit7 (address.setWidth 8)) 3
    ||| headerBit (bit7 value) 2 ||| headerBit (bit7 (checksumFull address value)) 1
    ||| headerBit (bit7 statusFull) 0

/-- `encodeReg(address, mask, value, is_read)` (R90). -/
def encodeReg (address : Addr) (mask value : Byte) (isRead : Bool) : Frame :=
  { soh := sohByte
    hbr := headerByte isRead address mask value
    msk := strip7 mask
    adh := pageByte address
    adl := strip7 (address.setWidth 8)
    dat := strip7 value
    csm := strip7 (checksumFull address value)
    sta := strip7 statusFull }

/-- `buildOsd(osd_op)`: the literal frames, "selected by table lookup and by nothing else" (R110 to R115). -/
def osdFrame : OsdOp → Frame
  | .left => ⟨0xFE, 0x41, 0x00, 0x02, 0x00, 0x01, 0x03, 0x2A⟩
  | .right => ⟨0xFE, 0x41, 0x00, 0x02, 0x00, 0x02, 0x04, 0x2A⟩
  | .up => ⟨0xFE, 0x41, 0x00, 0x02, 0x00, 0x03, 0x05, 0x2A⟩
  | .down => ⟨0xFE, 0x41, 0x00, 0x02, 0x00, 0x04, 0x06, 0x2A⟩
  | .set => ⟨0xFE, 0x41, 0x00, 0x02, 0x00, 0x05, 0x07, 0x2A⟩

/-- What the encoder's output shows for the operands of a register command (R27, R90, R96). -/
def encodeCommand (policy : AddrPolicy) (address : Addr) (mask value : Byte) (isRead : Bool) : EncOut :=
  if addrAccepted policy address then .frame (encodeReg address mask value isRead) else .refused .addressRange

end Sys2Proof.Machine
end

