-- ==== Sys2Proof/Machine/Flags.lean ====
section
/-! DEFINITION. The flags and codes of the recognizer: the class of a received byte and its failure code (R122), the derived
flags (R17, R24), the numeric codes (R13, R18, R151) and the outcome record (R25). -/

namespace Sys2Proof.Machine

/-- The class of a received byte (R122). -/
inductive ByteClass where
  | inproc
  | success
  | disconn
  | commsfail
  | other
deriving DecidableEq, Repr

/-- `class(b)` (R122). -/
def classOf (b : Byte) : ByteClass :=
  if b = tokInproc then .inproc
  else if b = tokSuccess then .success
  else if b = tokDisconn then .disconn
  else if b = tokCamtimeout ∨ b = tokFail ∨ b = tokCommsfail then .commsfail
  else .other

/-- `failcode(b)` (R122; the third line is the spec's decision D6). -/
def failCode (b : Byte) : ErrCode :=
  match classOf b with
  | .disconn => .disconnected
  | .commsfail => .comms
  | .inproc => .protocol
  | .success => .protocol
  | .other => .protocol

/-- `is_complete = (st == Complete)` (R17). -/
def isComplete (r : Recognizer) : Bool := r.st == .complete

/-- `busy = (st != Complete)` (R24). -/
def isBusy (r : Recognizer) : Bool := r.st != .complete

/-- The 2-bit encoding of `st` (R13, D3). -/
def seqCode : SeqState → BitVec 2
  | .awaitingAck => 0
  | .awaitingResult => 1
  | .awaitingPayload => 2
  | .complete => 3

/-- The 3-bit encoding of `err` (R18, R151, D5). -/
def errNumber : ErrCode → BitVec 3
  | .none => 0
  | .disconnected => 1
  | .comms => 2
  | .protocol => 3
  | .timeout => 4

/-- The message text of a failure where the source quotes one: that of `TIMEOUT` only (R151). -/
def errMessage : ErrCode → Option String
  | .none => none
  | .disconnected => none
  | .comms => none
  | .protocol => none
  | .timeout => some "No response. Check COM port."

/-- The Exchange Outcome (R25). -/
structure ExchangeOutcome where
  /-- The success flag. -/
  success : Bool
  /-- "received-complete". -/
  isComplete : Bool
  /-- The first half of "error-message". -/
  err : ErrCode
  /-- The second half of "error-message". -/
  errByte : Option Byte
  /-- The payload. -/
  payload : Option Byte
  /-- "attempted-command-id". -/
  cmdId : Nat
deriving DecidableEq, Repr

/-- The tuple (`success`, `is_complete`, (`err`, `err_byte`), `payload`, `cmd_id`) (R25). -/
def outcomeOf (r : Recognizer) : ExchangeOutcome :=
  { success := r.success, isComplete := isComplete r, err := r.err, errByte := r.errByte, payload := r.payload,
    cmdId := r.cmdId }

end Sys2Proof.Machine
end

