-- ==== Sys2Proof/Machine/Ops.lean ====
section
/-! DEFINITION. The named operations over the state, which the meanings share: logging (R123), the failure entry and its
return (R126, R159, R160), a received byte in each state (R124 to R128), `ARM` (R121), `TIMEOUT` (R129), presenting operands
to the encoder (R12, R27), text to the front end (R93), and the reset port (R180). -/

namespace Sys2Proof.Machine

/-! ## The recognizer -/

/-- Whether the log takes another byte (R123); the unbounded log always does. -/
def logHasRoom (depth : Option Nat) (r : Recognizer) : Bool :=
  match depth with
  | none => true
  | some d => decide (r.log.length < d)

/-- Logging of a received byte (R123): appended, or lost visibly in `log_ovf` (R22). -/
def appendLog (depth : Option Nat) (b : Byte) (r : Recognizer) : Recognizer :=
  if logHasRoom depth r then { r with log := r.log ++ [b] } else { r with logOvf := true }

/-- The failure entry, this block's taking of an exception: it writes `st`, `success`, `err` and `err_byte` and nothing else
(R126, R159; with no byte it is the timeout failure of R129). -/
def takeFailure (code : ErrCode) (byte : Option Byte) (r : Recognizer) : Recognizer :=
  { r with st := .complete, success := false, err := code, errByte := byte }

/-- `ARM`: a fresh exchange, and the only return from a failed one (R121, R160). -/
def armExchange (isRead : Bool) (cmdId : Nat) (r : Recognizer) : Recognizer :=
  { r with st := .awaitingAck, armedIsRead := isRead, cmdId := cmdId, success := false, err := .none, errByte := none,
           payload := none, log := [], logOvf := false, spurious := false }

/-- A byte where the acknowledgement is expected (R124). -/
def takeAck (b : Byte) (r : Recognizer) : Recognizer :=
  if b = tokInproc then { r with st := .awaitingResult } else takeFailure (failCode b) (some b) r

/-- A byte where the result is expected (R125). -/
def takeResult (b : Byte) (r : Recognizer) : Recognizer :=
  if b = tokSuccess then
    if r.armedIsRead then { r with st := .awaitingPayload } else { r with st := .complete, success := true }
  else takeFailure (failCode b) (some b) r

/-- A byte where the payload is expected: every value is data (R127). -/
def takePayload (b : Byte) (r : Recognizer) : Recognizer :=
  { r with payload := some b, success := true, st := .complete }

/-- A byte when nothing is awaited (R128). -/
def takeSpurious (r : Recognizer) : Recognizer := { r with spurious := true }

/-- `FEED b` on the recognizer: the log first, then the transition of the current state, in one atomic event (R123 to R128). -/
def feedByte (depth : Option Nat) (b : Byte) (r : Recognizer) : Recognizer :=
  match r.st with
  | .awaitingAck => takeAck b (appendLog depth b r)
  | .awaitingResult => takeResult b (appendLog depth b r)
  | .awaitingPayload => takePayload b (appendLog depth b r)
  | .complete => takeSpurious (appendLog depth b r)

/-- `TIMEOUT` on the recognizer (R129). -/
def hostTimeout (r : Recognizer) : Recognizer :=
  match r.st with
  | .awaitingAck => takeFailure .timeout none r
  | .awaitingResult => takeFailure .timeout none r
  | .awaitingPayload => takeFailure .timeout none r
  | .complete => r

/-! ## The machine -/

/-- The machine with another recognizer state. -/
def State.withRecog (s : State) (r : Recognizer) : State := { s with recog := r }

/-- The machine with another encoder output. -/
def State.withEncOut (s : State) (out : EncOut) : State := { s with encOut := out }

/-- The machine with another front-end answer. -/
def State.withTextOut (s : State) (out : TextOut) : State := { s with textOut := out }

/-- The machine with other stimuli waiting. -/
def State.withInputs (s : State) (inputs : List Stimulus) : State := { s with inputs := inputs }

/-- One received byte delivered to the machine. -/
def receiveByte (b : Byte) (s : State) : State := s.withRecog (feedByte s.cfg.logDepth b s.recog)

/-- The operands of a register command presented to the encoder; a textual mask passes the front end first, and a malformed
one reaches the encoder not at all (R91, R98, R184 step 1; notes/assumptions/10.md, notes/assumptions/14.md). -/
def buildReadWrite (isRead : Bool) (address : Addr) (mask : MaskOperand) (value : Byte) (s : State) : State :=
  match mask with
  | .byte m => s.withEncOut (encodeCommand s.cfg.addrPolicy address m value isRead)
  | .pattern text =>
    match parseMask text with
    | some m => (s.withTextOut (.mask m)).withEncOut (encodeCommand s.cfg.addrPolicy address m value isRead)
    | none => s.withTextOut .formatError

/-- An on-screen-display operation presented to the encoder (R110). -/
def buildOsd (op : OsdOp) (s : State) : State := s.withEncOut (.frame (osdFrame op))

/-- The `rst` port: every element of the recognizer takes its value of R28; nothing is sent, bytes in flight and the
encoder's outputs are not touched (R180, R181). No step of a run does this (R180; notes/assumptions/13.md). -/
def assertReset (s : State) : State := s.withRecog Recognizer.reset

end Sys2Proof.Machine
end

