-- ==== Sys2Proof/Machine/HostEvents.lean ====
section
/-! DEFINITION. The meanings of the host's two events (42_response_fsm.md R121, R129). -/

namespace Sys2Proof.Machine

/-- `ARM is_read, cmd_id` (R121): obeyed in every state (D11). -/
def execArm (isRead : Bool) (cmdId : Nat) (s : State) : Host.Outcome State Fault Refusal :=
  .next (s.withRecog (armExchange isRead cmdId s.recog))

/-- `TIMEOUT` (R129). -/
def execTimeout (s : State) : Host.Outcome State Fault Refusal := .next (s.withRecog (hostTimeout s.recog))

end Sys2Proof.Machine
end

