-- ==== Sys2Proof/Machine/Osd.lean ====
section
/-! DEFINITION. The meanings of the on-screen-display commands (41_osd.md R110 to R115). -/

namespace Sys2Proof.Machine

/-- `OSD_LEFT` (R111). -/
def execOsdLeft (s : State) : Host.Outcome State Fault Refusal := .next (buildOsd .left s)

/-- `OSD_RIGHT` (R112). -/
def execOsdRight (s : State) : Host.Outcome State Fault Refusal := .next (buildOsd .right s)

/-- `OSD_UP` (R113). -/
def execOsdUp (s : State) : Host.Outcome State Fault Refusal := .next (buildOsd .up s)

/-- `OSD_DOWN` (R114). -/
def execOsdDown (s : State) : Host.Outcome State Fault Refusal := .next (buildOsd .down s)

/-- `OSD_SET` (R115). -/
def execOsdSet (s : State) : Host.Outcome State Fault Refusal := .next (buildOsd .set s)

end Sys2Proof.Machine
end

