-- ==== Sys2Proof/Machine/RegCmd.lean ====
section
/-! DEFINITION. The meanings of `WRREG`, `RDREG` and `PARSEMASK` (40_regcmd.md R91, R92, R93). -/

namespace Sys2Proof.Machine

/-- `WRREG address, mask, value` (R91). -/
def execWrreg (address : Addr) (mask : MaskOperand) (value : Byte) (s : State) : Host.Outcome State Fault Refusal :=
  .next (buildReadWrite false address mask value s)

/-- `RDREG address, mask, value` (R92): the value is encoded as given (D20). -/
def execRdreg (address : Addr) (mask : MaskOperand) (value : Byte) (s : State) : Host.Outcome State Fault Refusal :=
  .next (buildReadWrite true address mask value s)

/-- `PARSEMASK "pattern"` (R93): the answer goes to the caller; a malformed text changes nothing else (R98). -/
def execParsemask (pattern : List Char) (s : State) : Host.Outcome State Fault Refusal :=
  .next (s.withTextOut (textAnswer pattern))

end Sys2Proof.Machine
end

