-- ==== Sys2Proof/Machine/Response.lean ====
section
/-! DEFINITION. The meanings of the received bytes: the six token rows and `FEED` (30_encoding.md R72; 42_response_fsm.md
R122 to R128, R130). A token row is the event `FEED` of its byte. -/

namespace Sys2Proof.Machine

/-- `T_INPROC`, the byte 0x45 (R124). -/
def execTInproc (s : State) : Host.Outcome State Fault Refusal := .next (receiveByte tokInproc s)

/-- `T_SUCCESS`, the byte 0x55 (R125). -/
def execTSuccess (s : State) : Host.Outcome State Fault Refusal := .next (receiveByte tokSuccess s)

/-- `T_CAMTIMEOUT`, the byte 0x54 (R122). -/
def execTCamtimeout (s : State) : Host.Outcome State Fault Refusal := .next (receiveByte tokCamtimeout s)

/-- `T_FAIL`, the byte 0x46 (R122). -/
def execTFail (s : State) : Host.Outcome State Fault Refusal := .next (receiveByte tokFail s)

/-- `T_DISCONN`, the byte 0x44 (R122). -/
def execTDisconn (s : State) : Host.Outcome State Fault Refusal := .next (receiveByte tokDisconn s)

/-- `T_COMMSFAIL`, the byte 0x43 (R122). -/
def execTCommsfail (s : State) : Host.Outcome State Fault Refusal := .next (receiveByte tokCommsfail s)

/-- `FEED b` (R123 to R128, R130). -/
def execFeed (b : Byte) (s : State) : Host.Outcome State Fault Refusal := .next (receiveByte b s)

end Sys2Proof.Machine
end

