-- ==== Sys2Proof/Machine/Dispatch.lean ====
section
/-! DEFINITION. One arm for every instruction, each one call of its meaning. -/

namespace Sys2Proof.Machine

def exec (i : Instr) (s : State) : Host.Outcome State Fault Refusal :=
  match i with
  | .wrreg address mask value => Sys2Proof.Machine.execWrreg address mask value s
  | .rdreg address mask value => Sys2Proof.Machine.execRdreg address mask value s
  | .osdLeft => Sys2Proof.Machine.execOsdLeft s
  | .osdRight => Sys2Proof.Machine.execOsdRight s
  | .osdUp => Sys2Proof.Machine.execOsdUp s
  | .osdDown => Sys2Proof.Machine.execOsdDown s
  | .osdSet => Sys2Proof.Machine.execOsdSet s
  | .tInproc => Sys2Proof.Machine.execTInproc s
  | .tSuccess => Sys2Proof.Machine.execTSuccess s
  | .tCamtimeout => Sys2Proof.Machine.execTCamtimeout s
  | .tFail => Sys2Proof.Machine.execTFail s
  | .tDisconn => Sys2Proof.Machine.execTDisconn s
  | .tCommsfail => Sys2Proof.Machine.execTCommsfail s
  | .feed b => Sys2Proof.Machine.execFeed b s
  | .arm isRead cmdId => Sys2Proof.Machine.execArm isRead cmdId s
  | .timeout => Sys2Proof.Machine.execTimeout s
  | .parsemask pattern => Sys2Proof.Machine.execParsemask pattern s

end Sys2Proof.Machine
end

