-- ==== Sys2Proof/Machine/Fetch.lean ====
section
/-! DEFINITION. Taking the next stimulus from the input ports: the machine's fetch (20_memory.md R54, 60_exceptions.md R157).
-/

namespace Sys2Proof.Machine

/-- What the machine finds at its input ports. -/
inductive Fetched where
  /-- Nothing waits: no event occurs. -/
  | idle
  /-- An instruction to run, and the machine with that instruction taken. -/
  | run (i : Instr) (s : State)
  /-- A stimulus that names no instruction, and the machine with the stimulus taken. -/
  | rejected (why : DecodeError) (s : State)
deriving DecidableEq, Repr

/-- The oldest stimulus, decoded; the strobes of a sampling beyond its first stay in front (R157). -/
def fetch (s : State) : Fetched :=
  match s.inputs with
  | [] => .idle
  | x :: rest =>
    match decode x with
    | .ok i => .run i (s.withInputs (remaining x ++ rest))
    | .error e => .rejected e (s.withInputs rest)

/-- What becomes of a stimulus that names no instruction: operand ports that name no operation show `enc_valid` = 0 (R110), a
sampling without a strobe does nothing, and bytes that name no command have no meaning (U11). -/
def reject (e : DecodeError) (s : State) : Host.Outcome State Fault Refusal :=
  match e with
  | .osdOperation => .next (s.withEncOut (.refused .osdOperation))
  | .noStrobe => .next s
  | .notEightBytes => .refused (.notACommand .notEightBytes)
  | .startByte => .refused (.notACommand .startByte)
  | .headerReservedBit => .refused (.notACommand .headerReservedBit)
  | .headerStatusBit => .refused (.notACommand .headerStatusBit)
  | .unstrippedByte => .refused (.notACommand .unstrippedByte)
  | .pageByte => .refused (.notACommand .pageByte)
  | .statusByte => .refused (.notACommand .statusByte)
  | .checksum => .refused (.notACommand .checksum)

end Sys2Proof.Machine
end

