-- ==== Sys2Proof/Machine/Step.lean ====
section
/-! DEFINITION. One step of the machine: one atomic event (00_scope.md R7, 20_memory.md R54). -/

namespace Sys2Proof.Machine

/-- One step: the oldest stimulus is taken and its first instruction runs; with nothing waiting nothing happens
(notes/assumptions/2.md). -/
def step (s : State) : Host.Outcome State Fault Refusal :=
  match fetch s with
  | .idle => .next s
  | .run i s' => exec i s'
  | .rejected e s' => reject e s'

/-- The state with the instruction of an opcode-table word as its oldest stimulus. -/
def State.withFetchWord (s : State) (nbits w : Nat) : State := s.withInputs (stimulusOfWord nbits w :: s.inputs)

end Sys2Proof.Machine
end

