-- ==== Sys2Proof/Machine/Ports.lean ====
section
/-! DEFINITION. The output ports of the block as functions of the state (10_state.md R27, with the hardware forms of R13,
R17 to R20 and R24). -/

namespace Sys2Proof.Machine

/-- "Hardware form: a valid bit and 8 data bits, data 0x00 when the valid bit is 0" (R19, R20). -/
structure OptBytePort where
  /-- The valid bit. -/
  valid : Bool
  /-- The data bits. -/
  data : Byte
deriving DecidableEq, Repr

/-- The hardware form of an optional byte (R19, R20). -/
def optBytePort : Option Byte → OptBytePort
  | none => { valid := false, data := 0x00 }
  | some b => { valid := true, data := b }

/-- The recognizer's output ports (R27). -/
structure RecogPorts where
  isComplete : Bool
  busy : Bool
  success : Bool
  err : BitVec 3
  errByte : OptBytePort
  payload : OptBytePort
  cmdId : Nat
  log : List Byte
  logOvf : Bool
  spurious : Bool
  st : BitVec 2
deriving DecidableEq, Repr

/-- The values on the recognizer's output ports, "readable at any time" (R27). -/
def recogPorts (r : Recognizer) : RecogPorts :=
  { isComplete := isComplete r, busy := isBusy r, success := r.success, err := errNumber r.err,
    errByte := optBytePort r.errByte, payload := optBytePort r.payload, cmdId := r.cmdId, log := r.log,
    logOvf := r.logOvf, spurious := r.spurious, st := seqCode r.st }

/-- `enc_valid` (R27); nothing before any operands are presented. -/
def encValid : EncOut → Option Bool
  | .idle => none
  | .frame _ => some true
  | .refused _ => some false

/-- `enc_frame` in the 64-bit view (R27, R61), where there is a frame. -/
def encFrame : EncOut → Option (BitVec 64)
  | .idle => none
  | .frame f => some f.word64
  | .refused _ => none

end Sys2Proof.Machine
end

