-- ==== Sys2Proof/Machine/RegisterMap.lean ====
section
/-! DEFINITION. The register map of 20_memory.md R44, transcribed row by row, and the two pages of R41. -/

namespace Sys2Proof.Machine

/-- A row of the map of R44: the source's address and purpose, and the spec's columns `ADH`, `ADL` and `HBR` bit 3. -/
structure RegisterRow where
  address : Addr
  purpose : String
  adh : Byte
  adl : Byte
  hbr3 : Bool
deriving DecidableEq, Repr

/-- The thirteen registers of R44. -/
def registerMap : List RegisterRow :=
  [ ⟨0x450, "3DNR", 0x00, 0x50, false⟩,
    ⟨0x4A8, "Zoom", 0x00, 0x28, true⟩,
    ⟨0x460, "Motion", 0x00, 0x60, false⟩,
    ⟨0x461, "Motion View", 0x00, 0x61, false⟩,
    ⟨0x448, "WDR Mode", 0x00, 0x48, false⟩,
    ⟨0x451, "Sharpness", 0x00, 0x51, false⟩,
    ⟨0x401, "AGC Mode", 0x00, 0x01, false⟩,
    ⟨0x41B, "BLC Mode", 0x00, 0x1B, false⟩,
    ⟨0x406, "Sens Up", 0x00, 0x06, false⟩,
    ⟨0x5E2, "Digit Out", 0x01, 0x62, true⟩,
    ⟨0x4B1, "Gamma", 0x00, 0x31, true⟩,
    ⟨0x402, "Shutter", 0x00, 0x02, false⟩,
    ⟨0x417, "Gain", 0x00, 0x17, false⟩ ]

/-- The in-range address whose register command has the same frame (R96): the page of R64 and the same low byte. -/
def aliasAddress (address : Addr) : Addr :=
  (if address < page1Base then 0x0400 else 0x0500) ||| (address &&& 0x00FF)

end Sys2Proof.Machine
end

