-- ==== Sys2Proof/Safety.lean ====
section
/-! DEFINITION. The terms claims use: the invariants of the recognizer (10_state.md R26, 42_response_fsm.md R132), of its log
(R21, R22) and of its failure record (60_exceptions.md R152), sequences of events, and what two states share. -/

namespace Sys2Proof.Machine

/-- The invariants of R26 (items 1 to 4, 6 and 7; item 5 speaks of the past) with the reading of a success of R132. -/
structure RecogInv (r : Recognizer) : Prop where
  /-- R26 item 1. -/
  waiting_is_clear : r.st ≠ .complete →
    r.success = false ∧ r.err = .none ∧ r.errByte = none ∧ r.payload = none ∧ r.spurious = false
  /-- R26 item 2. -/
  success_is_complete : r.success = true → r.st = .complete ∧ r.err = .none ∧ r.errByte = none
  /-- R26 item 3, the part that speaks of one state. -/
  payload_of_read : r.payload ≠ none → r.success = true ∧ r.armedIsRead = true
  /-- R26 item 4. -/
  failure_is_complete : r.err ≠ .none → r.st = .complete ∧ r.success = false
  /-- R26 item 6. -/
  byte_of_failure : r.errByte ≠ none → r.err = .disconnected ∨ r.err = .comms ∨ r.err = .protocol
  /-- R26 item 6. -/
  timeout_has_no_byte : r.err = .timeout → r.errByte = none
  /-- R26 item 7. -/
  payload_awaited_of_read : r.st = .awaitingPayload → r.armedIsRead = true
  /-- R132: a successful read has its payload. -/
  success_of_read_has_payload : r.success = true → r.armedIsRead = true → r.payload ≠ none

/-- The byte recorded with a failure is the one its code classes, and a failure other than a timeout has one (R152). -/
def FailureExplained (r : Recognizer) : Prop :=
  (∀ b, r.errByte = some b → r.err = failCode b) ∧
  (r.err ≠ .none → r.err ≠ .timeout → r.errByte ≠ none)

/-- A bounded log never exceeds its depth, and `log_ovf` stands only beside a full bounded log (R21, R22). -/
def LogBounded (cfg : Config) (r : Recognizer) : Prop :=
  (∀ depth, cfg.logDepth = some depth → r.log.length ≤ depth) ∧
  (r.logOvf = true → ∃ depth, cfg.logDepth = some depth ∧ r.log.length = depth)

/-- While an exchange is awaited the log holds exactly the tokens that brought the recognizer where it is, and after a
successful one it begins with them (R123 to R127). -/
def LogTellsExchange (r : Recognizer) : Prop :=
  (r.st ≠ .complete → r.logOvf = false) ∧
  (r.st = .awaitingAck → r.log = []) ∧
  (r.st = .awaitingResult → r.log = [tokInproc]) ∧
  (r.st = .awaitingPayload → r.log = [tokInproc, tokSuccess]) ∧
  (r.success = true → [tokInproc, tokSuccess] <+: r.log) ∧
  (∀ p, r.payload = some p → [tokInproc, tokSuccess, p] <+: r.log)

/-- `st` Complete, `success` 0 and `err` NONE together: no exchange has been armed since reset (R26 item 5). -/
def NeverArmed (r : Recognizer) : Prop := r.st = .complete ∧ r.success = false ∧ r.err = .none

/-- The byte an instruction delivers to the recognizer, if it delivers one. -/
def receivedByte : Instr → Option Byte
  | .wrreg _ _ _ => none
  | .rdreg _ _ _ => none
  | .osdLeft => none
  | .osdRight => none
  | .osdUp => none
  | .osdDown => none
  | .osdSet => none
  | .tInproc => some 0x45
  | .tSuccess => some 0x55
  | .tCamtimeout => some 0x54
  | .tFail => some 0x46
  | .tDisconn => some 0x44
  | .tCommsfail => some 0x43
  | .feed b => some b
  | .arm _ _ => none
  | .timeout => none
  | .parsemask _ => none

/-- The instruction is the event `ARM`. -/
def isArm : Instr → Bool
  | .arm _ _ => true
  | .wrreg _ _ _ => false
  | .rdreg _ _ _ => false
  | .osdLeft => false
  | .osdRight => false
  | .osdUp => false
  | .osdDown => false
  | .osdSet => false
  | .tInproc => false
  | .tSuccess => false
  | .tCamtimeout => false
  | .tFail => false
  | .tDisconn => false
  | .tCommsfail => false
  | .feed _ => false
  | .timeout => false
  | .parsemask _ => false

/-- A sequence of instructions run one after the other (R7: "A run of the block is a finite sequence of events"). -/
def runEvents : List Instr → State → Host.Outcome State Fault Refusal
  | [], s => .next s
  | i :: is, s =>
    match exec i s with
    | .next s' => runEvents is s'
    | .fault r => .fault r
    | .refused r => .refused r

/-- The fields of `encodeReg` (R90, R62 to R69) said with numbers: each field is its operand modulo 128, the header byte is
the sum of the relocated bits at their places, and the checksum is taken over the stripped address and value. -/
def FrameOfOperands (isRead : Bool) (address : Addr) (mask value : Byte) (f : Frame) : Prop :=
  let page := if address.toNat < 0x0500 then 0 else 1
  let sum := page + address.toNat % 128 + value.toNat % 128
  f.soh.toNat = 0xFE ∧
  f.hbr.toNat = 64 * isRead.toNat + 16 * (mask.toNat / 128) + 8 * (address.toNat / 128 % 2) + 4 * (value.toNat / 128)
    + 2 * (sum / 128) + 1 ∧
  f.msk.toNat = mask.toNat % 128 ∧
  f.adh.toNat = page ∧
  f.adl.toNat = address.toNat % 128 ∧
  f.dat.toNat = value.toNat % 128 ∧
  f.csm.toNat = sum % 128 ∧
  f.sta.toNat = 0x2A

/-- No reserved or never-produced value stands in the frame (R74), and the decoder names its command (R70, R97). -/
def ProducibleFrame (f : Frame) : Prop :=
  f.soh = 0xFE ∧ f.hbr.getLsbD 7 = false ∧ f.hbr.getLsbD 5 = false ∧ f.hbr.getLsbD 0 = true ∧
  bit7 f.msk = false ∧ (f.adh = 0x00 ∨ f.adh = 0x01 ∨ f.adh = 0x02) ∧ bit7 f.adl = false ∧ bit7 f.dat = false ∧
  bit7 f.csm = false ∧ f.sta = 0x2A ∧ ∃ i, decodeFrame f = .ok i

/-- What the encoder's output shows is a frame the encoder can produce (R74). -/
def EncOutProducible (s : State) : Prop := ∀ f, s.encOut = .frame f → ProducibleFrame f

/-- The pattern of a mask in one of the two written forms of R77: the digit of bit 7 first, the digit of bit 0 last, with or
without one space between the nibbles (R47, R93). -/
def patternText (spaced : Bool) (m : Byte) : List Char :=
  let digit (n : Nat) : Char := if m.getLsbD n then '1' else '0'
  [digit 7, digit 6, digit 5, digit 4] ++ (if spaced then [' '] else []) ++ [digit 3, digit 2, digit 1, digit 0]

/-- Two recognizers that differ at most in `log` and `log_ovf`. -/
def SameButLog (r r' : Recognizer) : Prop := { r with log := r'.log, logOvf := r'.logOvf } = r'

/-- Two machines that differ at most in `cmd_id`. -/
def SameButTag (s s' : State) : Prop := { s with recog := { s.recog with cmdId := s'.recog.cmdId } } = s'

end Sys2Proof.Machine
end

