-- ==== Sys2Proof/Certificates/Slice0/Obligations.lean ====
section
/-! DEFINITION. The statements for the provers. A docstring names the rule of spec/ a statement formalises; where the rule is
marked there as the spec's own decision or inference, the docstring names that mark. -/

open Sys2Proof Sys2Proof.Machine

/-! ## The Packet Encoder -/

/-- R90: a register command shows the frame of `encodeReg` at the encoder's output and changes nothing else, for every mask
and value, and for every address the policy accepts. `FrameOfOperands` says every byte of that frame. -/
def Obligations.RegisterCommandsBuildTheirFrame : Prop :=
  ∀ (s : State) (a : Addr) (m v : Byte),
    (s.cfg.addrPolicy = .formula ∨ (0x0400 ≤ a.toNat ∧ a.toNat ≤ 0x05FF)) →
    exec (.wrreg a (.byte m) v) s = .next { s with encOut := .frame (encodeReg a m v false) } ∧
    exec (.rdreg a (.byte m) v) s = .next { s with encOut := .frame (encodeReg a m v true) } ∧
    FrameOfOperands false a m v (encodeReg a m v false) ∧
    FrameOfOperands true a m v (encodeReg a m v true)

/-- R96 (the spec's decision D14): under the policy `refuse` an address outside 0x0400 to 0x05FF gives no frame and the
report `AddressRange`; the machine goes on (that it does is the model's reading, notes/assumptions/9.md). -/
def Obligations.RefusingPolicyReportsAddressRange : Prop :=
  ∀ (s : State) (a : Addr) (m v : Byte),
    s.cfg.addrPolicy = .refuse → (a.toNat < 0x0400 ∨ 0x05FF < a.toNat) →
    exec (.wrreg a (.byte m) v) s = .next { s with encOut := .refused .addressRange } ∧
    exec (.rdreg a (.byte m) v) s = .next { s with encOut := .refused .addressRange }

/-- R91, R93, R98 (decisions D15, D24; notes/assumptions/9.md, 10.md, 14.md): a register command whose mask is text is the
command of the mask the text spells, in both written forms; any other text is reported as `FormatError` and reaches the encoder
not at all, whatever the address and the policy (that the text is judged before the address is the model's reading,
notes/assumptions/10.md). -/
def Obligations.RegisterCommandsTakeTextMasks : Prop :=
  ∀ (s : State) (a : Addr) (text : List Char) (v : Byte),
    (∀ m spaced, text = patternText spaced m →
      exec (.wrreg a (.pattern text) v) s = exec (.wrreg a (.byte m) v) { s with textOut := .mask m } ∧
      exec (.rdreg a (.pattern text) v) s = exec (.rdreg a (.byte m) v) { s with textOut := .mask m }) ∧
    ((∀ m spaced, text ≠ patternText spaced m) →
      exec (.wrreg a (.pattern text) v) s = .next { s with textOut := .formatError } ∧
      exec (.rdreg a (.pattern text) v) s = .next { s with textOut := .formatError })

/-- R63 (with the fields of R66 and R69): bit 7 of mask, low address byte, value, checksum and status goes to its place in
the header byte, the 7 low bits stay in the field's own byte. -/
def Obligations.MsbRelocationOfFiveFields : Prop :=
  ∀ (a : Addr) (m v : Byte) (isRead : Bool),
    let f := encodeReg a m v isRead
    let cs := f.adh + f.adl + f.dat
    (f.msk = m &&& 0x7F ∧ f.hbr.getLsbD 4 = m.getLsbD 7) ∧
    (f.adl = a.setWidth 8 &&& 0x7F ∧ f.hbr.getLsbD 3 = a.getLsbD 7) ∧
    (f.dat = v &&& 0x7F ∧ f.hbr.getLsbD 2 = v.getLsbD 7) ∧
    (f.csm = cs &&& 0x7F ∧ f.hbr.getLsbD 1 = cs.getLsbD 7) ∧
    (f.sta = 0xAA &&& 0x7F ∧ f.hbr.getLsbD 0 = (0xAA#8).getLsbD 7)

/-- R64: the page byte is 0 below 0x0500 and 1 from there on, as unsigned 16-bit numbers; in 0x0400 to 0x05FF it is 0 exactly
below 0x0500; its bit 7 is always 0, and it contributes nothing to the header byte but through the checksum (bit 1). -/
def Obligations.PageByteIsAnUnsignedComparison : Prop :=
  ∀ (a : Addr) (m v : Byte) (isRead : Bool),
    let f := encodeReg a m v isRead
    f.adh = (if a.toNat < 0x0500 then 0x00 else 0x01) ∧ f.adh.getLsbD 7 = false ∧
    (0x0400 ≤ a.toNat → a.toNat ≤ 0x05FF → (f.adh = 0x00 ↔ a.toNat < 0x0500)) ∧
    (∀ a' : Addr, a'.toNat % 256 = a.toNat % 256 → ∀ n, n ≠ 1 →
      (encodeReg a' m v isRead).hbr.getLsbD n = f.hbr.getLsbD n)

/-- R68: the checksum is the low byte of the sum of the page byte and the stripped address and value bytes; its low 7 bits
are `CSM`, its bit 7 is `HBR` bit 1; the mask and the read flag do not enter it. -/
def Obligations.ChecksumSumsTheStrippedBytes : Prop :=
  ∀ (a : Addr) (m v : Byte) (isRead : Bool),
    let f := encodeReg a m v isRead
    let full := (f.adh.toNat + (a.toNat % 128) + (v.toNat % 128)) % 256
    f.csm.toNat = full % 128 ∧ (f.hbr.getLsbD 1 = true ↔ 128 ≤ full) ∧
    ∀ (m' : Byte) (isRead' : Bool),
      (encodeReg a m' v isRead').csm = f.csm ∧ (encodeReg a m' v isRead').hbr.getLsbD 1 = f.hbr.getLsbD 1

/-- R95 item 3 (marked as derived there; conflict C2): restoring the relocated bits does not change the seven low bits of the
sum, and it changes the eighth exactly when one and only one of `address[7]`, `value[7]` is 1. R94 (derived): the sum of the
stripped bytes never exceeds 0xFF. -/
def Obligations.RestoredChecksumDiffersInItsTopBit : Prop :=
  ∀ (a : Addr) (m v : Byte) (isRead : Bool),
    let f := encodeReg a m v isRead
    let restored := f.adh + restore7 f.adl (f.hbr.getLsbD 3) + restore7 f.dat (f.hbr.getLsbD 2)
    f.adh.toNat + f.adl.toNat + f.dat.toNat ≤ 0xFF ∧
    f.csm = (f.adh + f.adl + f.dat) &&& 0x7F ∧ f.csm = restored &&& 0x7F ∧
    (f.hbr.getLsbD 1 ≠ restored.getLsbD 7 ↔ a.getLsbD 7 ≠ v.getLsbD 7)

/-- R62 (bit 5 is the spec's decision D18): all eight bits of the header byte, from 7 to 0, and its possible values: the odd
numbers 0x01 to 0x1F for a write and 0x41 to 0x5F for a read. -/
def Obligations.HeaderByteHasNoOtherValue : Prop :=
  ∀ (a : Addr) (m v : Byte) (isRead : Bool),
    let f := encodeReg a m v isRead
    f.hbr.getLsbD 7 = false ∧ f.hbr.getLsbD 6 = isRead ∧ f.hbr.getLsbD 5 = false ∧
    f.hbr.getLsbD 4 = m.getLsbD 7 ∧ f.hbr.getLsbD 3 = a.getLsbD 7 ∧ f.hbr.getLsbD 2 = v.getLsbD 7 ∧
    f.hbr.getLsbD 1 = (f.adh + f.adl + f.dat).getLsbD 7 ∧ f.hbr.getLsbD 0 = true ∧ f.hbr.toNat % 2 = 1 ∧
    (isRead = false → 0x01 ≤ f.hbr.toNat ∧ f.hbr.toNat ≤ 0x1F) ∧
    (isRead = true → 0x41 ≤ f.hbr.toNat ∧ f.hbr.toNat ≤ 0x5F)

/-- R65, R96 (decision D14): bits 15:8 of the address reach the frame only through the page comparison, so an address gives
the frame of its alias in 0x0400 to 0x05FF, and no two addresses of that range share a frame. -/
def Obligations.OutOfRangeAddressesAlias : Prop :=
  (∀ (a : Addr) (m v : Byte) (isRead : Bool),
    encodeReg a m v isRead = encodeReg (aliasAddress a) m v isRead ∧
    0x0400 ≤ (aliasAddress a).toNat ∧ (aliasAddress a).toNat ≤ 0x05FF ∧
    (0x0400 ≤ a.toNat → a.toNat ≤ 0x05FF → aliasAddress a = a)) ∧
  (∀ (a a' : Addr) (m v m' v' : Byte) (isRead isRead' : Bool),
    0x0400 ≤ a.toNat → a.toNat ≤ 0x05FF → 0x0400 ≤ a'.toNat → a'.toNat ≤ 0x05FF →
    encodeReg a m v isRead = encodeReg a' m' v' isRead' → a = a' ∧ m = m' ∧ v = v' ∧ isRead = isRead')

/-- R12: the frame is a function of the operands alone: two machines of one configuration, whatever their recognizers and the
frames before, show the same output after the same command. -/
def Obligations.FrameDependsOnOperandsAlone : Prop :=
  ∀ (s s' : State), s.cfg = s'.cfg →
    ∀ i, i ∈ [Instr.osdLeft, .osdRight, .osdUp, .osdDown, .osdSet] ∨
        (∃ a m v, i = .wrreg a (.byte m) v ∨ i = .rdreg a (.byte m) v) →
      ∃ t t', exec i s = .next t ∧ exec i s' = .next t' ∧ t.encOut = t'.encOut ∧
        (s.cfg.addrPolicy = .formula → ∃ f, t.encOut = .frame f)

/-- R44 (its columns are marked as derived there): every register of the map is encoded with the columns of its row. -/
def Obligations.RegisterMapColumnsAreEncoded : Prop :=
  ∀ row ∈ registerMap, ∀ (m v : Byte) (isRead : Bool),
    let f := encodeReg row.address m v isRead
    f.adh = row.adh ∧ f.adl = row.adl ∧ f.hbr.getLsbD 3 = row.hbr3

/-- R111: `OSD_LEFT` shows the literal the source prints in full, and changes nothing else. -/
def Obligations.OsdLeftGivesItsLiteral : Prop :=
  ∀ s : State,
    exec .osdLeft s = .next { s with encOut := .frame ⟨0xFE, 0x41, 0x00, 0x02, 0x00, 0x01, 0x03, 0x2A⟩ } ∧
    Frame.word64 ⟨0xFE, 0x41, 0x00, 0x02, 0x00, 0x01, 0x03, 0x2A⟩ = 0xFE4100020001032A

/-- R112 to R115 (their first five bytes are the spec's decision D16): the other four literals. -/
def Obligations.OtherOsdCommandsGiveTheirLiterals : Prop :=
  ∀ s : State,
    exec .osdRight s = .next { s with encOut := .frame ⟨0xFE, 0x41, 0x00, 0x02, 0x00, 0x02, 0x04, 0x2A⟩ } ∧
    exec .osdUp s = .next { s with encOut := .frame ⟨0xFE, 0x41, 0x00, 0x02, 0x00, 0x03, 0x05, 0x2A⟩ } ∧
    exec .osdDown s = .next { s with encOut := .frame ⟨0xFE, 0x41, 0x00, 0x02, 0x00, 0x04, 0x06, 0x2A⟩ } ∧
    exec .osdSet s = .next { s with encOut := .frame ⟨0xFE, 0x41, 0x00, 0x02, 0x00, 0x05, 0x07, 0x2A⟩ } ∧
    Frame.word64 ⟨0xFE, 0x41, 0x00, 0x02, 0x00, 0x02, 0x04, 0x2A⟩ = 0xFE4100020002042A ∧
    Frame.word64 ⟨0xFE, 0x41, 0x00, 0x02, 0x00, 0x03, 0x05, 0x2A⟩ = 0xFE4100020003052A ∧
    Frame.word64 ⟨0xFE, 0x41, 0x00, 0x02, 0x00, 0x04, 0x06, 0x2A⟩ = 0xFE4100020004062A ∧
    Frame.word64 ⟨0xFE, 0x41, 0x00, 0x02, 0x00, 0x05, 0x07, 0x2A⟩ = 0xFE4100020005072A

/-- R116 item 2, R70 (marked as derived there): no register command gives a literal, and the frame decoder rejects every
literal by its page byte. -/
def Obligations.OsdLiteralsAreNoRegisterCommands : Prop :=
  ∀ op : OsdOp,
    (∀ (a : Addr) (m v : Byte) (isRead : Bool), encodeReg a m v isRead ≠ osdFrame op) ∧
    decodeReg (osdFrame op) = .error .pageByte

/-- R80, R110 (decision D28; notes/assumptions/9.md): the operand port values 1 to 5 name the operations, and 0, 6 and 7 show
`enc_valid` = 0; the recognizer and everything else stay, and the stimulus is taken. -/
def Obligations.OsdOperandPortSelectsOrRefuses : Prop :=
  ∀ (s : State) (p : EncPorts) (rest : List Stimulus), s.inputs = .operands p :: rest → p.osdSel = true →
    (p.osdOp = 1 → step s = .next { s with inputs := rest, encOut := .frame (osdFrame .left) }) ∧
    (p.osdOp = 2 → step s = .next { s with inputs := rest, encOut := .frame (osdFrame .right) }) ∧
    (p.osdOp = 3 → step s = .next { s with inputs := rest, encOut := .frame (osdFrame .up) }) ∧
    (p.osdOp = 4 → step s = .next { s with inputs := rest, encOut := .frame (osdFrame .down) }) ∧
    (p.osdOp = 5 → step s = .next { s with inputs := rest, encOut := .frame (osdFrame .set) }) ∧
    (p.osdOp = 0 ∨ p.osdOp = 6 ∨ p.osdOp = 7 →
      step s = .next { s with inputs := rest, encOut := .refused .osdOperation })

/-! ## The text front end -/

/-- R93, R98 (decisions D15, D24; notes/assumptions/9.md): `PARSEMASK` answers the mask a pattern spells, first digit bit 7,
in both written forms, and `FormatError` for every other text; nothing else changes. -/
def Obligations.ParsemaskReadsExactlyThePatterns : Prop :=
  ∀ (s : State) (text : List Char),
    (∀ m spaced, text = patternText spaced m → exec (.parsemask text) s = .next { s with textOut := .mask m }) ∧
    ((∀ m spaced, text ≠ patternText spaced m) → exec (.parsemask text) s = .next { s with textOut := .formatError })

/-- R77 (decision D15): the texts the conversion accepts are exactly the well-formed patterns. -/
def Obligations.WellFormedPatternsAreThoseConverted : Prop :=
  ∀ text : List Char, patternWellFormed text = true ↔ ∃ m, parseMask text = some m

/-! ## Decoding and encoding -/

/-- R97, R70, R72, R76: decoding the encoding of a well-formed instruction gives it back with every operand, and takes the
whole stimulus. -/
def Obligations.DecodeOfEncodeIsTheInstruction : Prop :=
  ∀ i : Instr, i.wellFormed = true → decode (encode i) = .ok i ∧ remaining (encode i) = []

/-- R97, R70: a frame the decoder names is the encoding of what it names, so no bit of a frame is ignored. -/
def Obligations.EncodeOfDecodeIsTheFrame : Prop :=
  ∀ (f : Frame) (i : Instr), decodeFrame f = .ok i → encode i = .frame f.bytes ∧ i.wellFormed = true

/-- R97 (marked as derived there): `decodeReg` inverts the encoder's own function, and every frame it accepts is one of that
function's on an address of 0x0400 to 0x05FF. -/
def Obligations.DecodeRegInvertsEncodeReg : Prop :=
  (∀ (a : Addr) (m v : Byte) (isRead : Bool), 0x0400 ≤ a.toNat → a.toNat ≤ 0x05FF →
    decodeReg (encodeReg a m v isRead) = .ok { isRead := isRead, address := a, mask := m, value := v }) ∧
  (∀ (f : Frame) (c : RegCommand), decodeReg f = .ok c →
    encodeReg c.address c.mask c.value c.isRead = f ∧ 0x0400 ≤ c.address.toNat ∧ c.address.toNat ≤ 0x05FF)

/-- The pattern of the rows `WRREG` and `RDREG` of spec/opcode_table.json and the pseudocode of R90 give the same 64 bits, and
the literals of R111 to R115 are the rows' own values (in the view of R61, the spec's decision D1). -/
def Obligations.TableWordsAreTheEncodersFrames : Prop :=
  (∀ (a : Addr) (m v : Byte) (isRead : Bool), (encodeReg a m v isRead).word64 = regWord isRead a m v) ∧
  (∀ op : OsdOp, (osdFrame op).word64 = osdWord op) ∧
  (∀ f : Frame, frameOfWord64 f.word64 = f)

/-- Words written out from the spec's tables decode to the instructions they stand for (95_test_vectors.md V1, V3, V8, O1,
O5; 30_encoding.md R72), and the five malformed frames that section 2.1 lists as rejected are rejected by name. -/
def Obligations.SpecWordsDecode : Prop :=
  decodeBytes [0xFE, 0x11, 0x7F, 0x00, 0x17, 0x0C, 0x23, 0x2A] = .ok (.wrreg 0x0417 (.byte 0xFF) 0x0C) ∧
  decodeBytes [0xFE, 0x1D, 0x00, 0x01, 0x62, 0x00, 0x63, 0x2A] = .ok (.wrreg 0x05E2 (.byte 0x80) 0x80) ∧
  decodeBytes [0xFE, 0x5F, 0x7F, 0x01, 0x7F, 0x7F, 0x7F, 0x2A] = .ok (.rdreg 0x05FF (.byte 0xFF) 0xFF) ∧
  decodeBytes [0xFE, 0x41, 0x00, 0x02, 0x00, 0x01, 0x03, 0x2A] = .ok .osdLeft ∧
  decodeBytes [0xFE, 0x41, 0x00, 0x02, 0x00, 0x05, 0x07, 0x2A] = .ok .osdSet ∧
  decodeRx 0x45 = .tInproc ∧ decodeRx 0x43 = .tCommsfail ∧ decodeRx 0x0C = .feed 0x0C ∧
  decodeBytes [0xFE, 0x4B, 0x0F, 0x00, 0x28, 0x00, 0x28, 0x2A] = .error .checksum ∧
  decodeBytes [0xFE, 0x11, 0x7F, 0x00, 0x17, 0x0C, 0x24, 0x2A] = .error .checksum ∧
  decodeBytes [0xFE, 0x31, 0x7F, 0x00, 0x17, 0x0C, 0x23, 0x2A] = .error .headerReservedBit ∧
  decodeBytes [0xFE, 0x10, 0x7F, 0x00, 0x17, 0x0C, 0x23, 0x2A] = .error .headerStatusBit ∧
  decodeBytes [0xFE, 0x11, 0x7F, 0x00, 0x17, 0x0C, 0x23, 0xAA] = .error .statusByte

/-- R72, R130: every received byte reads as an instruction that is encoded as that byte and does what `FEED` of it does; so a
token row is `FEED` of its token (notes/assumptions/12.md). -/
def Obligations.TokenRowsAreFeedOfTheirByte : Prop :=
  ∀ (b : Byte) (s : State),
    encode (decodeRx b) = rxStimulus b ∧ receivedByte (decodeRx b) = some b ∧ (decodeRx b).wellFormed = true ∧
    exec (decodeRx b) s = exec (.feed b) s

/-! ## Steps -/

/-- A step takes the oldest stimulus and runs the instruction it decodes to; what else its sampling holds stays in front
(20_memory.md R54; the queue is the model's, notes/assumptions/2.md). -/
def Obligations.StepRunsTheDecodedInstruction : Prop :=
  ∀ (s : State) (x : Stimulus) (rest : List Stimulus) (i : Instr), s.inputs = x :: rest → decode x = .ok i →
    step s = exec i { s with inputs := remaining x ++ rest }

/-- With nothing at the ports, and at a sampling without a strobe, no event occurs; bytes that name no command are refused by
name (93_implementation_defined.md U11; notes/assumptions/2.md, 4.md). -/
def Obligations.StepWithoutAnInstruction : Prop :=
  (∀ s : State, s.inputs = [] → step s = .next s) ∧
  (∀ (s : State) (p : Strobes) (rest : List Stimulus), s.inputs = .strobes p :: rest →
    p.rxValid = false → p.timeout = false → p.arm = false → step s = .next { s with inputs := rest }) ∧
  (∀ (s : State) (bytes : List Byte) (rest : List Stimulus), s.inputs = .frame bytes :: rest →
    ∀ e, decodeBytes bytes = .error e → step s = .refused (.notACommand e))

/-- R157 (decision D2): strobes active in one sampling are applied as full events, `FEED`, then `TIMEOUT`, then `ARM`, each on
the state left by the one before. -/
def Obligations.SameCycleStrobesAreAppliedInOrder : Prop :=
  ∀ (s : State) (p : Strobes) (rest : List Stimulus), s.inputs = .strobes p :: rest →
    let events := (if p.rxValid then [Instr.feed p.rxByte] else []) ++ (if p.timeout then [Instr.timeout] else []) ++
      (if p.arm then [Instr.arm p.armIsRead p.armCmdId] else [])
    events ≠ [] →
    ∃ t, runEvents events { s with inputs := rest } = .next t ∧ Host.Core.run core events.length s = .next t

/-! ## The recognizer, event by event -/

/-- R121 (that it takes effect in every state is the spec's decision D11): `ARM` starts a fresh exchange. -/
def Obligations.ArmStartsAFreshExchange : Prop :=
  ∀ (s : State) (isRead : Bool) (cmdId : Nat),
    exec (.arm isRead cmdId) s = .next { s with recog :=
      { st := .awaitingAck, armedIsRead := isRead, cmdId := cmdId, success := false, err := .none, errByte := none,
        payload := none, log := [], logOvf := false, spurious := false } }

/-- R124: a byte where the acknowledgement is expected. -/
def Obligations.FeedInAwaitingAck : Prop :=
  ∀ (s : State) (b : Byte), s.recog.st = .awaitingAck →
    (b = 0x45 → exec (.feed b) s = .next { s with recog :=
      { appendLog s.cfg.logDepth b s.recog with st := .awaitingResult } }) ∧
    (b ≠ 0x45 → exec (.feed b) s = .next { s with recog :=
      { appendLog s.cfg.logDepth b s.recog with
        st := .complete, success := false, errByte := some b,
        err := if b = 0x44 then .disconnected
          else if b = 0x54 ∨ b = 0x46 ∨ b = 0x43 then .comms else .protocol } })

/-- R125, R126 (the failure codes of this state are the spec's decision D7, the recorded byte is D8): a byte where the result
is expected. -/
def Obligations.FeedInAwaitingResult : Prop :=
  ∀ (s : State) (b : Byte), s.recog.st = .awaitingResult →
    (b = 0x55 → s.recog.armedIsRead = true → exec (.feed b) s = .next { s with recog :=
      { appendLog s.cfg.logDepth b s.recog with st := .awaitingPayload } }) ∧
    (b = 0x55 → s.recog.armedIsRead = false → exec (.feed b) s = .next { s with recog :=
      { appendLog s.cfg.logDepth b s.recog with st := .complete, success := true } }) ∧
    (b ≠ 0x55 → exec (.feed b) s = .next { s with recog :=
      { appendLog s.cfg.logDepth b s.recog with
        st := .complete, success := false, errByte := some b,
        err := if b = 0x44 then .disconnected
          else if b = 0x54 ∨ b = 0x46 ∨ b = 0x43 then .comms else .protocol } })

/-- R127 (the byte is kept as received by the spec's decision D21) and R128 (decision D9): where the payload is expected every
byte is data; in `Complete` every byte is logged and flagged, and the outcome stands. -/
def Obligations.FeedInAwaitingPayloadAndComplete : Prop :=
  ∀ (s : State) (b : Byte),
    (s.recog.st = .awaitingPayload → exec (.feed b) s = .next { s with recog :=
      { appendLog s.cfg.logDepth b s.recog with st := .complete, success := true, payload := some b } }) ∧
    (s.recog.st = .complete → exec (.feed b) s = .next { s with recog :=
      { appendLog s.cfg.logDepth b s.recog with spurious := true } })

/-- R124, R125, R122: the in-process and the success token where they are expected, and the failure each is where it is not
(its code `PROTOCOL` is the spec's decision D6). -/
def Obligations.ProgressTokensMoveOrFail : Prop :=
  ∀ s : State,
    (s.recog.st = .awaitingAck → exec .tInproc s = .next { s with recog :=
      { appendLog s.cfg.logDepth 0x45 s.recog with st := .awaitingResult } }) ∧
    (s.recog.st = .awaitingResult → exec .tInproc s = .next { s with recog :=
      { appendLog s.cfg.logDepth 0x45 s.recog with
        st := .complete, success := false, err := .protocol, errByte := some 0x45 } }) ∧
    (s.recog.st = .awaitingAck → exec .tSuccess s = .next { s with recog :=
      { appendLog s.cfg.logDepth 0x55 s.recog with
        st := .complete, success := false, err := .protocol, errByte := some 0x55 } }) ∧
    (s.recog.st = .awaitingResult → exec .tSuccess s = .next { s with recog :=
      if s.recog.armedIsRead then { appendLog s.cfg.logDepth 0x55 s.recog with st := .awaitingPayload }
      else { appendLog s.cfg.logDepth 0x55 s.recog with st := .complete, success := true } })

/-- R122, R152 (the same codes in both states by decision D7, the recorded byte by D8): the four failure tokens, where the
acknowledgement or the result is expected. -/
def Obligations.FailureTokensFailTheExchange : Prop :=
  ∀ s : State, s.recog.st = .awaitingAck ∨ s.recog.st = .awaitingResult →
    exec .tDisconn s = .next { s with recog := { appendLog s.cfg.logDepth 0x44 s.recog with
      st := .complete, success := false, err := .disconnected, errByte := some 0x44 } } ∧
    exec .tCamtimeout s = .next { s with recog := { appendLog s.cfg.logDepth 0x54 s.recog with
      st := .complete, success := false, err := .comms, errByte := some 0x54 } } ∧
    exec .tFail s = .next { s with recog := { appendLog s.cfg.logDepth 0x46 s.recog with
      st := .complete, success := false, err := .comms, errByte := some 0x46 } } ∧
    exec .tCommsfail s = .next { s with recog := { appendLog s.cfg.logDepth 0x43 s.recog with
      st := .complete, success := false, err := .comms, errByte := some 0x43 } }

/-- R127, R128 (decisions D21, D9): in `AwaitingPayload` every token value is data, in `Complete` it is a spurious byte. -/
def Obligations.TokenValuesAreDataOrSpurious : Prop :=
  ∀ (s : State) (i : Instr) (b : Byte),
    (i, b) ∈ [(Instr.tInproc, (0x45 : Byte)), (.tSuccess, 0x55), (.tCamtimeout, 0x54), (.tFail, 0x46), (.tDisconn, 0x44),
      (.tCommsfail, 0x43)] →
    (s.recog.st = .awaitingPayload → exec i s = .next { s with recog :=
      { appendLog s.cfg.logDepth b s.recog with st := .complete, success := true, payload := some b } }) ∧
    (s.recog.st = .complete → exec i s = .next { s with recog :=
      { appendLog s.cfg.logDepth b s.recog with spurious := true } })

/-- R129 (moving to `Complete` is the spec's decision D10): `TIMEOUT` fails an awaited exchange and does nothing otherwise. -/
def Obligations.TimeoutFailsAnAwaitedExchange : Prop :=
  ∀ s : State,
    (s.recog.st ≠ .complete → exec .timeout s = .next { s with recog :=
      { s.recog with st := .complete, success := false, err := .timeout, errByte := none } }) ∧
    (s.recog.st = .complete → exec .timeout s = .next s)

/-- R123, R22 (decision D12): every received byte is appended to the log, or, where a bounded log is full, is lost and sets
`log_ovf`; every other instruction but `ARM` leaves both alone. -/
def Obligations.EveryReceivedByteIsLogged : Prop :=
  ∀ (i : Instr) (s t : State), exec i s = .next t →
    (∀ b, receivedByte i = some b →
      ((s.cfg.logDepth = none ∨ ∃ d, s.cfg.logDepth = some d ∧ s.recog.log.length < d) →
        t.recog.log = s.recog.log ++ [b] ∧ t.recog.logOvf = s.recog.logOvf) ∧
      ((∃ d, s.cfg.logDepth = some d ∧ d ≤ s.recog.log.length) →
        t.recog.log = s.recog.log ∧ t.recog.logOvf = true)) ∧
    (receivedByte i = none → isArm i = false →
      t.recog.log = s.recog.log ∧ t.recog.logOvf = s.recog.logOvf)

/-! ## Rules of the whole machine -/

/-- R133 for the recognizer's events (marked as derived there): every instruction answers a next state in every state. That a
command with a refused operand does so is the model's reading (notes/assumptions/9.md), and `inputs` and `cfg`, which no
instruction changes, are the model's own fields (notes/assumptions/1.md, 2.md). -/
def Obligations.NoInstructionFaultsOrIsRefused : Prop :=
  ∀ (i : Instr) (s : State), ∃ t, exec i s = .next t ∧ t.inputs = s.inputs ∧ t.cfg = s.cfg

/-- R14: `armed_is_read` is written only by `ARM`, from its argument, and read only by the success byte received in
`AwaitingResult`: every other event, another byte in `AwaitingResult` among them, moves two machines that differ in the flag
alone alike. The success byte moves `st` to `AwaitingPayload` where the
flag is 1 and to `Complete` where it is 0. -/
def Obligations.ReadFlagIsLatchedAtArm : Prop :=
  ∀ (i : Instr) (s t : State), exec i s = .next t →
    (∀ isRead cmdId, i = .arm isRead cmdId → t.recog.armedIsRead = isRead) ∧
    (isArm i = false → t.recog.armedIsRead = s.recog.armedIsRead) ∧
    (isArm i = false → (receivedByte i ≠ some 0x55 ∨ s.recog.st ≠ .awaitingResult) → ∀ flag : Bool,
      exec i { s with recog := { s.recog with armedIsRead := flag } } =
        .next { t with recog := { t.recog with armedIsRead := flag } }) ∧
    (∀ b, receivedByte i = some b → s.recog.st = .awaitingResult → b = 0x55 →
      t.recog.st = if s.recog.armedIsRead then .awaitingPayload else .complete)

/-- R16: what clears and what sets `success`, and nothing else sets it. -/
def Obligations.SuccessIsSetByTwoTransitionsOnly : Prop :=
  ∀ (i : Instr) (s t : State), exec i s = .next t →
    (isArm i = true → t.recog.success = false) ∧
    (s.recog.success = false → t.recog.success = true → ∃ b, receivedByte i = some b ∧
      (s.recog.st = .awaitingResult ∧ b = 0x55 ∧ s.recog.armedIsRead = false ∨ s.recog.st = .awaitingPayload)) ∧
    (∀ b, receivedByte i = some b →
      (s.recog.st = .awaitingResult ∧ b = 0x55 ∧ s.recog.armedIsRead = false ∨ s.recog.st = .awaitingPayload) →
        t.recog.success = true) ∧
    (∀ b, receivedByte i = some b →
      (s.recog.st = .awaitingAck ∧ b ≠ 0x45 ∨ s.recog.st = .awaitingResult ∧ b ≠ 0x55) → t.recog.success = false) ∧
    (i = .timeout → s.recog.st ≠ .complete → t.recog.success = false)

/-- R130 (marked as derived there): only `ARM` leaves `Complete`, and no other instruction moves `st` back. -/
def Obligations.SequenceOnlyMovesForwardWithoutArm : Prop :=
  ∀ (i : Instr) (s t : State), exec i s = .next t → isArm i = false →
    (seqCode s.recog.st).toNat ≤ (seqCode t.recog.st).toNat ∧
    (s.recog.st = .complete → t.recog.st = .complete) ∧
    (receivedByte i = none → i ≠ .timeout → t.recog = s.recog)

/-- R152 (the code `PROTOCOL` is the spec's decision D6, the recorded byte D8): from a state with no failure recorded, each
code is recorded by exactly its events in exactly its states. -/
def Obligations.FailuresHaveExactlyTheirCauses : Prop :=
  ∀ (i : Instr) (s t : State), exec i s = .next t → s.recog.err = .none →
    let waitsForToken := s.recog.st = .awaitingAck ∨ s.recog.st = .awaitingResult
    (t.recog.err = .disconnected ↔ receivedByte i = some 0x44 ∧ waitsForToken) ∧
    (t.recog.err = .comms ↔
      (receivedByte i = some 0x54 ∨ receivedByte i = some 0x46 ∨ receivedByte i = some 0x43) ∧ waitsForToken) ∧
    (t.recog.err = .protocol ↔ ∃ b, receivedByte i = some b ∧ b ∉ [(0x44 : Byte), 0x54, 0x46, 0x43] ∧
      (s.recog.st = .awaitingAck ∧ b ≠ 0x45 ∨ s.recog.st = .awaitingResult ∧ b ≠ 0x55)) ∧
    (t.recog.err = .timeout ↔ i = .timeout ∧ s.recog.st ≠ .complete) ∧
    (t.recog.err ≠ .none →
      t.recog.st = .complete ∧ t.recog.success = false ∧ t.recog.errByte = receivedByte i)

/-- R20, R26 item 3 (marked as derived there): a payload appears only as the byte that moves the recognizer from
`AwaitingPayload` to `Complete`. -/
def Obligations.PayloadIsTheByteFed : Prop :=
  ∀ (i : Instr) (s t : State) (p : Byte), exec i s = .next t → t.recog.payload = some p → s.recog.payload ≠ some p →
    receivedByte i = some p ∧ s.recog.st = .awaitingPayload ∧ t.recog.st = .complete ∧ t.recog.success = true

/-- R10, R53: the encoder's commands and the front end leave the recognizer alone, and the recognizer's events leave the
encoder's output and the front end's answer alone. -/
def Obligations.EncoderAndRecognizerKeepApart : Prop :=
  ∀ (i : Instr) (s t : State), exec i s = .next t →
    (receivedByte i = none → isArm i = false → i ≠ .timeout → t.recog = s.recog) ∧
    (receivedByte i ≠ none ∨ isArm i = true ∨ i = .timeout → t.encOut = s.encOut ∧ t.textOut = s.textOut)

/-! ## Invariants -/

/-- The reset state (values of R28, the spec's decision D4) meets every invariant stated below. -/
def Obligations.ResetMeetsTheInvariants : Prop :=
  RecogInv State.reset.recog ∧ FailureExplained State.reset.recog ∧ LogBounded State.reset.cfg State.reset.recog ∧
  LogTellsExchange State.reset.recog ∧ State.reset.cfg.wf = true ∧ EncOutProducible State.reset ∧
  NeverArmed State.reset.recog

/-- R26 items 1 to 4, 6 and 7, and R132 (marked as derived there): every step keeps the invariants of the recognizer. -/
def Obligations.StepKeepsTheRecognizerInvariants : Prop :=
  ∀ s t : State, RecogInv s.recog → step s = .next t → RecogInv t.recog

/-- R152, R126 (the recorded byte is the spec's decision D8): every step keeps `err` the code of `err_byte`. -/
def Obligations.StepKeepsFailuresExplained : Prop :=
  ∀ s t : State, FailureExplained s.recog → step s = .next t → FailureExplained t.recog

/-- R21, R22 (decision D12): every step keeps a bounded log within its depth and `log_ovf` beside a full one, and no step
changes the parameters. -/
def Obligations.StepKeepsTheLogBounded : Prop :=
  ∀ s t : State, LogBounded s.cfg s.recog → step s = .next t → LogBounded t.cfg t.recog ∧ t.cfg = s.cfg

/-- R123 to R127, R159 (a log of at least 3 bytes is the spec's decision D12): every step keeps the log telling how far the
exchange has come and what it brought. -/
def Obligations.StepKeepsTheLogTellingTheExchange : Prop :=
  ∀ s t : State, s.cfg.wf = true → RecogInv s.recog → LogTellsExchange s.recog → step s = .next t →
    LogTellsExchange t.recog

/-- R74, R70, R97 (`HBR` bit 5 is the spec's decision D18): every step keeps the encoder's output a frame without reserved
values that the decoder names. -/
def Obligations.StepKeepsTheOutputProducible : Prop :=
  ∀ s t : State, EncOutProducible s → step s = .next t → EncOutProducible t

/-- R26 item 5 (marked as derived there): no step enters the state `Complete` without success and without failure; only
reset does, and `ARM` leaves it. -/
def Obligations.NoStepReturnsToNeverArmed : Prop :=
  (∀ s t : State, ¬ NeverArmed s.recog → step s = .next t → ¬ NeverArmed t.recog) ∧
  (∀ (s : State) (isRead : Bool) (cmdId : Nat), ∃ t, exec (.arm isRead cmdId) s = .next t ∧ ¬ NeverArmed t.recog)

/-! ## Runs -/

/-- R132, R161 (marked as derived there): once an exchange is complete its outcome stands through every sequence of
instructions without `ARM`. -/
def Obligations.OutcomeStandsUntilTheNextArm : Prop :=
  ∀ (events : List Instr) (s : State), (∀ i ∈ events, isArm i = false) → s.recog.st = .complete →
    ∃ t, runEvents events s = .next t ∧ outcomeOf t.recog = outcomeOf s.recog ∧
      t.recog.armedIsRead = s.recog.armedIsRead

/-- R134 (marked as derived there): an armed exchange is complete after 3 received bytes (read), 2 (write), or one
`TIMEOUT`, whatever else the host presents between them. -/
def Obligations.ArmedExchangeCompletes : Prop :=
  ∀ (events : List Instr) (s : State) (isRead : Bool) (cmdId : Nat), (∀ i ∈ events, isArm i = false) →
    ((if isRead then 3 else 2) ≤ (events.filterMap receivedByte).length ∨ Instr.timeout ∈ events) →
    ∃ t, runEvents (.arm isRead cmdId :: events) s = .next t ∧ t.recog.st = .complete

/-- R21: the log holds every byte received since the last `ARM`, in arrival order; `ARM` and reset empty it. -/
def Obligations.UnboundedLogHoldsEveryByteSinceArm : Prop :=
  (∀ (events : List Instr) (s : State), s.cfg.logDepth = none → (∀ i ∈ events, isArm i = false) →
    ∃ t, runEvents events s = .next t ∧ t.recog.log = s.recog.log ++ events.filterMap receivedByte) ∧
  (∀ (s : State) (isRead : Bool) (cmdId : Nat), ∃ t, exec (.arm isRead cmdId) s = .next t ∧ t.recog.log = []) ∧
  State.reset.recog.log = [] ∧ (∀ s : State, (assertReset s).recog.log = [])

/-- R123, D12: the log is never read by the recognizer: machines that differ in the log, its overflow flag and `LOG_DEPTH`
differ in nothing else of the recognizer after any sequence of instructions. So a bounded log is a faithful implementation
of the unbounded one but for the log itself. -/
def Obligations.LogDepthNeverChangesTheExchange : Prop :=
  ∀ (events : List Instr) (s s' : State), SameButLog s.recog s'.recog →
    ∃ t t', runEvents events s = .next t ∧ runEvents events s' = .next t' ∧ SameButLog t.recog t'.recog

/-- R15 (decision D13): `cmd_id` is written only by `ARM` and never read by the block: two machines that differ in it alone
differ in nothing else after any instruction, the outputs of the encoder and of the front end included. -/
def Obligations.CommandTagIsNeverRead : Prop :=
  ∀ (i : Instr) (s s' : State), SameButTag s s' →
    ∃ t t', exec i s = .next t ∧ exec i s' = .next t' ∧ SameButTag t t' ∧
      (isArm i = false → t.recog.cmdId = s.recog.cmdId) ∧
      (∀ isRead cmdId, i = .arm isRead cmdId → t.recog.cmdId = cmdId)

/-- R121, R167: what came before an `ARM` leaves no trace in the recognizer: any two histories agree after it. -/
def Obligations.ArmErasesTheHistory : Prop :=
  ∀ (events events' : List Instr) (s s' : State) (isRead : Bool) (cmdId : Nat),
    ∃ t t', runEvents (events ++ [.arm isRead cmdId]) s = .next t ∧
      runEvents (events' ++ [.arm isRead cmdId]) s' = .next t' ∧ t.recog = t'.recog ∧ t.recog.st = .awaitingAck

/-- R73 (marked as derived there): the four shapes of a response and how each ends, from any state, through the bytes after
an `ARM`. -/
def Obligations.ResponseShapesEndTheExchange : Prop :=
  ∀ (s : State) (isRead : Bool) (cmdId : Nat) (b p : Byte),
    (b ≠ 0x45 → ∃ t, runEvents [.arm isRead cmdId, .feed b] s = .next t ∧
      outcomeOf t.recog = { success := false, isComplete := true, err := failCode b, errByte := some b, payload := none,
                            cmdId := cmdId }) ∧
    (b ≠ 0x55 → ∃ t, runEvents [.arm isRead cmdId, .feed 0x45, .feed b] s = .next t ∧
      outcomeOf t.recog = { success := false, isComplete := true, err := failCode b, errByte := some b, payload := none,
                            cmdId := cmdId }) ∧
    (∃ t, runEvents [.arm false cmdId, .feed 0x45, .feed 0x55] s = .next t ∧
      outcomeOf t.recog = { success := true, isComplete := true, err := .none, errByte := none, payload := none,
                            cmdId := cmdId }) ∧
    (∃ t, runEvents [.arm true cmdId, .feed 0x45, .feed 0x55] s = .next t ∧ t.recog.st = .awaitingPayload ∧
      t.recog.success = false) ∧
    (∃ t, runEvents [.arm true cmdId, .feed 0x45, .feed 0x55, .feed p] s = .next t ∧
      outcomeOf t.recog = { success := true, isComplete := true, err := .none, errByte := none, payload := some p,
                            cmdId := cmdId })

/-- R187, T30, T31 (marked as derived there): an exchange armed against its frame's direction. Armed as a write, a read's
payload byte is only a spurious byte; armed as a read, a write's response leaves the recognizer waiting until `TIMEOUT`
fails it, whatever the device did. -/
def Obligations.ReadFlagMismatchLosesTheResult : Prop :=
  ∀ (s : State) (cmdId : Nat) (p : Byte),
    (∃ t, runEvents [.arm false cmdId, .tInproc, .tSuccess, .feed p] s = .next t ∧ t.recog.st = .complete ∧
      t.recog.success = true ∧ t.recog.payload = none ∧ t.recog.spurious = true) ∧
    (∃ t, runEvents [.arm true cmdId, .tInproc, .tSuccess, .timeout] s = .next t ∧ t.recog.st = .complete ∧
      t.recog.success = false ∧ t.recog.err = .timeout ∧ t.recog.payload = none)

/-! ## Reset and ports -/

/-- R28, R180, R181 (decision D4): the values of the recognizer after reset, from any state, and that reset touches nothing
else; the model's own fields are left (notes/assumptions/13.md). -/
def Obligations.ResetForcesEveryElement : Prop :=
  (∀ s : State, assertReset s = { s with recog :=
    { st := .complete, armedIsRead := false, cmdId := 0, success := false, err := .none, errByte := none, payload := none,
      log := [], logOvf := false, spurious := false } }) ∧
  State.reset.recog = (assertReset State.reset).recog

/-- R13, R15 to R24, R27 (the port list is the spec's decision D1, the numbers are its decisions D3 and D5), R61: what every
output port shows. The recognizer's: the two derived flags, the codes of `st` and `err`, each optional byte as a valid bit and
8 data bits that are 0x00 when it is clear, and the other elements as they are. The encoder's: a frame with `enc_valid` = 1 and
`F[1]` in bits 63:56 of `enc_frame` down to `F[8]` in bits 7:0, and `enc_valid` = 0 for refused operands. That the model names no
`enc_frame` beside a refusal, and neither port before any operands are presented, is its own choice
(notes/assumptions/3.md). -/
def Obligations.PortsShowTheState : Prop :=
  (∀ r : Recognizer,
    ((recogPorts r).isComplete = true ↔ r.st = .complete) ∧ (recogPorts r).busy = !(recogPorts r).isComplete ∧
    ((recogPorts r).st = 0 ↔ r.st = .awaitingAck) ∧ ((recogPorts r).st = 1 ↔ r.st = .awaitingResult) ∧
    ((recogPorts r).st = 2 ↔ r.st = .awaitingPayload) ∧ ((recogPorts r).st = 3 ↔ r.st = .complete) ∧
    ((recogPorts r).err = 0 ↔ r.err = .none) ∧ ((recogPorts r).err = 1 ↔ r.err = .disconnected) ∧
    ((recogPorts r).err = 2 ↔ r.err = .comms) ∧ ((recogPorts r).err = 3 ↔ r.err = .protocol) ∧
    ((recogPorts r).err = 4 ↔ r.err = .timeout) ∧
    (r.errByte = none ↔ (recogPorts r).errByte = { valid := false, data := 0x00 }) ∧
    (∀ b, r.errByte = some b ↔ (recogPorts r).errByte = { valid := true, data := b }) ∧
    (r.payload = none ↔ (recogPorts r).payload = { valid := false, data := 0x00 }) ∧
    (∀ b, r.payload = some b ↔ (recogPorts r).payload = { valid := true, data := b }) ∧
    (recogPorts r).success = r.success ∧ (recogPorts r).cmdId = r.cmdId ∧ (recogPorts r).log = r.log ∧
    (recogPorts r).logOvf = r.logOvf ∧ (recogPorts r).spurious = r.spurious) ∧
  (∀ f : Frame, encValid (.frame f) = some true ∧ ∃ w, encFrame (.frame f) = some w ∧
    w.extractLsb' 56 8 = f.soh ∧ w.extractLsb' 48 8 = f.hbr ∧ w.extractLsb' 40 8 = f.msk ∧ w.extractLsb' 32 8 = f.adh ∧
    w.extractLsb' 24 8 = f.adl ∧ w.extractLsb' 16 8 = f.dat ∧ w.extractLsb' 8 8 = f.csm ∧ w.extractLsb' 0 8 = f.sta) ∧
  (∀ why : EncRefusal, encValid (.refused why) = some false ∧ encFrame (.refused why) = none) ∧
  encValid .idle = none ∧ encFrame .idle = none

/-- R27 (the ports are the spec's decision D1, the policy is D14), R90, R96: with `enc_osd_sel` = 0 the operand ports are a
register command, `enc_is_read` choosing the direction, whatever `enc_osd_op` holds. Where the policy accepts the address,
`enc_valid` is 1 and the frame is that of `encodeReg` on the four operands; where it refuses, `enc_valid` is 0 and the report is
`AddressRange`. The stimulus is taken and nothing else changes (the queue and that the machine goes on are the model's,
notes/assumptions/2.md, 9.md). -/
def Obligations.OperandPortsBuildRegisterCommands : Prop :=
  ∀ (s : State) (p : EncPorts) (rest : List Stimulus), s.inputs = .operands p :: rest → p.osdSel = false →
    ((s.cfg.addrPolicy = .formula ∨ (0x0400 ≤ p.address.toNat ∧ p.address.toNat ≤ 0x05FF)) →
      let f := encodeReg p.address p.mask p.value p.isRead
      FrameOfOperands p.isRead p.address p.mask p.value f ∧
      ∃ t, step s = .next t ∧ t = { s with inputs := rest, encOut := .frame f } ∧
        encValid t.encOut = some true ∧ encFrame t.encOut = some (regWord p.isRead p.address p.mask p.value)) ∧
    (s.cfg.addrPolicy = .refuse → (p.address.toNat < 0x0400 ∨ 0x05FF < p.address.toNat) →
      ∃ t, step s = .next t ∧ t = { s with inputs := rest, encOut := .refused .addressRange } ∧
        encValid t.encOut = some false)
end

