-- ==== Sys2Proof/Laws/Bits.lean ====
section
/-! SUPPORT. The bits of the encoder's bytes: MSB stripping and restoring undo one another, the header byte is its bits, and
the numbers behind them. -/

namespace Sys2Proof.Machine

theorem strip7_toNat (x : Byte) : (strip7 x).toNat = x.toNat % 128 := by
  simp only [strip7, BitVec.toNat_and]
  exact Nat.and_two_pow_sub_one_eq_mod _ 7

theorem bit7_eq_decide : ∀ x : Byte, bit7 x = decide (128 ≤ x.toNat) := by decide

theorem bit7_toNat : ∀ x : Byte, (bit7 x).toNat = x.toNat / 128 := by decide

@[simp] theorem bit7_strip7 : ∀ x : Byte, bit7 (strip7 x) = false := by decide

@[simp] theorem restore7_strip7 : ∀ x : Byte, restore7 (strip7 x) (bit7 x) = x := by decide

theorem strip7_restore7 : ∀ (x : Byte) (b : Bool), bit7 x = false → strip7 (restore7 x b) = x := by decide

theorem bit7_restore7 : ∀ (x : Byte) (b : Bool), bit7 x = false → bit7 (restore7 x b) = b := by decide

/-- The page byte as a number. -/
theorem pageByte_toNat (a : Addr) : (pageByte a).toNat = if a.toNat < 0x0500 then 0 else 1 := by
  unfold pageByte
  split
  · next h =>
    have h' : a.toNat < 0x0500 := BitVec.lt_def.mp h
    rw [if_pos h']; rfl
  · next h =>
    have h' : ¬ a.toNat < 0x0500 := fun k => h (BitVec.lt_def.mpr k)
    rw [if_neg h']; rfl

/-- The full checksum as a number. -/
theorem checksumFull_toNat (a : Addr) (v : Byte) :
    (checksumFull a v).toNat = (pageByte a).toNat + a.toNat % 128 + v.toNat % 128 := by
  have hp := pageByte_toNat a
  simp only [checksumFull, BitVec.toNat_add, strip7_toNat, BitVec.toNat_setWidth]
  split at hp <;> omega

/-- The six moved bits of a header byte, assembled. -/
def headerOfBits (read mask addr value check : Bool) : Byte :=
  headerBit read 6 ||| headerBit mask 4 ||| headerBit addr 3 ||| headerBit value 2 ||| headerBit check 1
    ||| headerBit (bit7 statusFull) 0

theorem headerByte_eq (rd : Bool) (a : Addr) (m v : Byte) :
    headerByte rd a m v =
      headerOfBits rd (bit7 m) (bit7 (a.setWidth 8)) (bit7 v) (bit7 (checksumFull a v)) := rfl

theorem headerOfBits_toNat : ∀ b6 b4 b3 b2 b1 : Bool, (headerOfBits b6 b4 b3 b2 b1).toNat =
    64 * b6.toNat + 16 * b4.toNat + 8 * b3.toNat + 4 * b2.toNat + 2 * b1.toNat + 1 := by decide

theorem headerOfBits_getLsbD : ∀ b6 b4 b3 b2 b1 : Bool,
    (headerOfBits b6 b4 b3 b2 b1).getLsbD 7 = false ∧ (headerOfBits b6 b4 b3 b2 b1).getLsbD 6 = b6 ∧
    (headerOfBits b6 b4 b3 b2 b1).getLsbD 5 = false ∧ (headerOfBits b6 b4 b3 b2 b1).getLsbD 4 = b4 ∧
    (headerOfBits b6 b4 b3 b2 b1).getLsbD 3 = b3 ∧ (headerOfBits b6 b4 b3 b2 b1).getLsbD 2 = b2 ∧
    (headerOfBits b6 b4 b3 b2 b1).getLsbD 1 = b1 ∧ (headerOfBits b6 b4 b3 b2 b1).getLsbD 0 = true := by decide

/-- A header byte without reserved bits is the assembly of its own bits. -/
theorem headerOfBits_of_header : ∀ h : Byte, h.getLsbD 7 = false → h.getLsbD 5 = false → h.getLsbD 0 = true →
    headerOfBits (h.getLsbD 6) (h.getLsbD 4) (h.getLsbD 3) (h.getLsbD 2) (h.getLsbD 1) = h := by decide

end Sys2Proof.Machine
end

