-- ==== Sys2Proof/Laws/State.lean ====
section
/-! SUPPORT. One lemma for every field of the machine under every update, each true by `rfl`. -/

namespace Sys2Proof.Machine

variable (s : State)

@[simp] theorem withRecog_recog (r : Recognizer) : (s.withRecog r).recog = r := rfl
@[simp] theorem withRecog_encOut (r : Recognizer) : (s.withRecog r).encOut = s.encOut := rfl
@[simp] theorem withRecog_textOut (r : Recognizer) : (s.withRecog r).textOut = s.textOut := rfl
@[simp] theorem withRecog_inputs (r : Recognizer) : (s.withRecog r).inputs = s.inputs := rfl
@[simp] theorem withRecog_cfg (r : Recognizer) : (s.withRecog r).cfg = s.cfg := rfl

@[simp] theorem withEncOut_recog (o : EncOut) : (s.withEncOut o).recog = s.recog := rfl
@[simp] theorem withEncOut_encOut (o : EncOut) : (s.withEncOut o).encOut = o := rfl
@[simp] theorem withEncOut_textOut (o : EncOut) : (s.withEncOut o).textOut = s.textOut := rfl
@[simp] theorem withEncOut_inputs (o : EncOut) : (s.withEncOut o).inputs = s.inputs := rfl
@[simp] theorem withEncOut_cfg (o : EncOut) : (s.withEncOut o).cfg = s.cfg := rfl

@[simp] theorem withTextOut_recog (o : TextOut) : (s.withTextOut o).recog = s.recog := rfl
@[simp] theorem withTextOut_encOut (o : TextOut) : (s.withTextOut o).encOut = s.encOut := rfl
@[simp] theorem withTextOut_textOut (o : TextOut) : (s.withTextOut o).textOut = o := rfl
@[simp] theorem withTextOut_inputs (o : TextOut) : (s.withTextOut o).inputs = s.inputs := rfl
@[simp] theorem withTextOut_cfg (o : TextOut) : (s.withTextOut o).cfg = s.cfg := rfl

@[simp] theorem withInputs_recog (l : List Stimulus) : (s.withInputs l).recog = s.recog := rfl
@[simp] theorem withInputs_encOut (l : List Stimulus) : (s.withInputs l).encOut = s.encOut := rfl
@[simp] theorem withInputs_textOut (l : List Stimulus) : (s.withInputs l).textOut = s.textOut := rfl
@[simp] theorem withInputs_inputs (l : List Stimulus) : (s.withInputs l).inputs = l := rfl
@[simp] theorem withInputs_cfg (l : List Stimulus) : (s.withInputs l).cfg = s.cfg := rfl

variable (r : Recognizer)

@[simp] theorem takeFailure_st (c : ErrCode) (b : Option Byte) : (takeFailure c b r).st = .complete := rfl
@[simp] theorem takeFailure_armedIsRead (c : ErrCode) (b : Option Byte) :
    (takeFailure c b r).armedIsRead = r.armedIsRead := rfl
@[simp] theorem takeFailure_cmdId (c : ErrCode) (b : Option Byte) : (takeFailure c b r).cmdId = r.cmdId := rfl
@[simp] theorem takeFailure_success (c : ErrCode) (b : Option Byte) : (takeFailure c b r).success = false := rfl
@[simp] theorem takeFailure_err (c : ErrCode) (b : Option Byte) : (takeFailure c b r).err = c := rfl
@[simp] theorem takeFailure_errByte (c : ErrCode) (b : Option Byte) : (takeFailure c b r).errByte = b := rfl
@[simp] theorem takeFailure_payload (c : ErrCode) (b : Option Byte) : (takeFailure c b r).payload = r.payload := rfl
@[simp] theorem takeFailure_log (c : ErrCode) (b : Option Byte) : (takeFailure c b r).log = r.log := rfl
@[simp] theorem takeFailure_logOvf (c : ErrCode) (b : Option Byte) : (takeFailure c b r).logOvf = r.logOvf := rfl
@[simp] theorem takeFailure_spurious (c : ErrCode) (b : Option Byte) : (takeFailure c b r).spurious = r.spurious := rfl

@[simp] theorem takePayload_st (b : Byte) : (takePayload b r).st = .complete := rfl
@[simp] theorem takePayload_armedIsRead (b : Byte) : (takePayload b r).armedIsRead = r.armedIsRead := rfl
@[simp] theorem takePayload_cmdId (b : Byte) : (takePayload b r).cmdId = r.cmdId := rfl
@[simp] theorem takePayload_success (b : Byte) : (takePayload b r).success = true := rfl
@[simp] theorem takePayload_err (b : Byte) : (takePayload b r).err = r.err := rfl
@[simp] theorem takePayload_errByte (b : Byte) : (takePayload b r).errByte = r.errByte := rfl
@[simp] theorem takePayload_payload (b : Byte) : (takePayload b r).payload = some b := rfl
@[simp] theorem takePayload_log (b : Byte) : (takePayload b r).log = r.log := rfl
@[simp] theorem takePayload_logOvf (b : Byte) : (takePayload b r).logOvf = r.logOvf := rfl
@[simp] theorem takePayload_spurious (b : Byte) : (takePayload b r).spurious = r.spurious := rfl

@[simp] theorem takeSpurious_st : (takeSpurious r).st = r.st := rfl
@[simp] theorem takeSpurious_armedIsRead : (takeSpurious r).armedIsRead = r.armedIsRead := rfl
@[simp] theorem takeSpurious_cmdId : (takeSpurious r).cmdId = r.cmdId := rfl
@[simp] theorem takeSpurious_success : (takeSpurious r).success = r.success := rfl
@[simp] theorem takeSpurious_err : (takeSpurious r).err = r.err := rfl
@[simp] theorem takeSpurious_errByte : (takeSpurious r).errByte = r.errByte := rfl
@[simp] theorem takeSpurious_payload : (takeSpurious r).payload = r.payload := rfl
@[simp] theorem takeSpurious_log : (takeSpurious r).log = r.log := rfl
@[simp] theorem takeSpurious_logOvf : (takeSpurious r).logOvf = r.logOvf := rfl
@[simp] theorem takeSpurious_spurious : (takeSpurious r).spurious = true := rfl

end Sys2Proof.Machine
end

