-- ==== Sys2Proof/Laws/Ops.lean ====
section
/-! SUPPORT. One lemma for each shared operation that says once everything it can do; proofs cite these instead of unfolding
the operations. -/

namespace Sys2Proof.Machine

/-! ## Logging -/

/-- Logging changes `log` and `log_ovf` only, in one of two ways (R123). -/
theorem appendLog_cases (depth : Option Nat) (b : Byte) (r : Recognizer) :
    (logHasRoom depth r = true ∧ appendLog depth b r = { r with log := r.log ++ [b] }) ∨
    (logHasRoom depth r = false ∧ appendLog depth b r = { r with logOvf := true }) := by
  unfold appendLog
  cases h : logHasRoom depth r <;> simp

/-- The unbounded log takes every byte. -/
@[simp] theorem appendLog_unbounded (b : Byte) (r : Recognizer) :
    appendLog none b r = { r with log := r.log ++ [b] } := rfl

@[simp] theorem appendLog_st (depth : Option Nat) (b : Byte) (r : Recognizer) : (appendLog depth b r).st = r.st := by
  unfold appendLog; split <;> rfl

@[simp] theorem appendLog_armedIsRead (depth : Option Nat) (b : Byte) (r : Recognizer) :
    (appendLog depth b r).armedIsRead = r.armedIsRead := by unfold appendLog; split <;> rfl

@[simp] theorem appendLog_cmdId (depth : Option Nat) (b : Byte) (r : Recognizer) :
    (appendLog depth b r).cmdId = r.cmdId := by unfold appendLog; split <;> rfl

@[simp] theorem appendLog_success (depth : Option Nat) (b : Byte) (r : Recognizer) :
    (appendLog depth b r).success = r.success := by unfold appendLog; split <;> rfl

@[simp] theorem appendLog_err (depth : Option Nat) (b : Byte) (r : Recognizer) : (appendLog depth b r).err = r.err := by
  unfold appendLog; split <;> rfl

@[simp] theorem appendLog_errByte (depth : Option Nat) (b : Byte) (r : Recognizer) :
    (appendLog depth b r).errByte = r.errByte := by unfold appendLog; split <;> rfl

@[simp] theorem appendLog_payload (depth : Option Nat) (b : Byte) (r : Recognizer) :
    (appendLog depth b r).payload = r.payload := by unfold appendLog; split <;> rfl

@[simp] theorem appendLog_spurious (depth : Option Nat) (b : Byte) (r : Recognizer) :
    (appendLog depth b r).spurious = r.spurious := by unfold appendLog; split <;> rfl

/-! ## A received byte -/

/-- Everything a received byte can do to the recognizer (R124 to R128): six cases, each with its guard. -/
theorem feedByte_cases (depth : Option Nat) (b : Byte) (r : Recognizer) :
    (r.st = .awaitingAck ∧ b = tokInproc ∧
      feedByte depth b r = { appendLog depth b r with st := .awaitingResult }) ∨
    (r.st = .awaitingResult ∧ b = tokSuccess ∧ r.armedIsRead = true ∧
      feedByte depth b r = { appendLog depth b r with st := .awaitingPayload }) ∨
    (r.st = .awaitingResult ∧ b = tokSuccess ∧ r.armedIsRead = false ∧
      feedByte depth b r = { appendLog depth b r with st := .complete, success := true }) ∨
    ((r.st = .awaitingAck ∧ b ≠ tokInproc ∨ r.st = .awaitingResult ∧ b ≠ tokSuccess) ∧
      feedByte depth b r = takeFailure (failCode b) (some b) (appendLog depth b r)) ∨
    (r.st = .awaitingPayload ∧ feedByte depth b r = takePayload b (appendLog depth b r)) ∨
    (r.st = .complete ∧ feedByte depth b r = takeSpurious (appendLog depth b r)) := by
  cases h : r.st with
  | awaitingAck => by_cases hb : b = tokInproc <;> simp [feedByte, takeAck, h, hb]
  | awaitingResult =>
    by_cases hb : b = tokSuccess <;> cases hr : r.armedIsRead <;> simp [feedByte, takeResult, h, hb, hr]
  | awaitingPayload => simp [feedByte, h]
  | complete => simp [feedByte, h]

/-! ## The host's events -/

/-- Everything `TIMEOUT` can do (R129). -/
theorem hostTimeout_cases (r : Recognizer) :
    (r.st ≠ .complete ∧ hostTimeout r = takeFailure .timeout none r) ∨ (r.st = .complete ∧ hostTimeout r = r) := by
  cases h : r.st <;> simp [hostTimeout, h]

/-- `ARM` leaves nothing of the exchange before it (R121). -/
theorem armExchange_eq (isRead : Bool) (cmdId : Nat) (r : Recognizer) :
    armExchange isRead cmdId r =
      { st := .awaitingAck, armedIsRead := isRead, cmdId := cmdId, success := false, err := .none, errByte := none,
        payload := none, log := [], logOvf := false, spurious := false } := rfl

/-! ## The encoder's side -/

/-- The two answers of the encoder to a register command (R90, R96). -/
theorem encodeCommand_cases (policy : AddrPolicy) (a : Addr) (m v : Byte) (rd : Bool) :
    (addrAccepted policy a = true ∧ encodeCommand policy a m v rd = .frame (encodeReg a m v rd)) ∨
    (addrAccepted policy a = false ∧ encodeCommand policy a m v rd = .refused .addressRange) := by
  unfold encodeCommand
  cases h : addrAccepted policy a <;> simp

/-- Presenting a register command touches the encoder's output and the front end's answer only. -/
theorem buildReadWrite_frame (rd : Bool) (a : Addr) (mask : MaskOperand) (v : Byte) (s : State) :
    (buildReadWrite rd a mask v s).recog = s.recog ∧ (buildReadWrite rd a mask v s).inputs = s.inputs ∧
    (buildReadWrite rd a mask v s).cfg = s.cfg := by
  cases mask with
  | byte m => exact ⟨rfl, rfl, rfl⟩
  | pattern text =>
    cases h : parseMask text <;> simp [buildReadWrite, h]

/-! ## Instructions and steps -/

/-- What an instruction does to the recognizer (R10, R120): the encoder's side leaves it alone, the three events move it. -/
def recogAfter (i : Instr) (cfg : Config) (r : Recognizer) : Recognizer :=
  match i with
  | .wrreg _ _ _ => r
  | .rdreg _ _ _ => r
  | .osdLeft => r
  | .osdRight => r
  | .osdUp => r
  | .osdDown => r
  | .osdSet => r
  | .tInproc => feedByte cfg.logDepth tokInproc r
  | .tSuccess => feedByte cfg.logDepth tokSuccess r
  | .tCamtimeout => feedByte cfg.logDepth tokCamtimeout r
  | .tFail => feedByte cfg.logDepth tokFail r
  | .tDisconn => feedByte cfg.logDepth tokDisconn r
  | .tCommsfail => feedByte cfg.logDepth tokCommsfail r
  | .feed b => feedByte cfg.logDepth b r
  | .arm isRead cmdId => armExchange isRead cmdId r
  | .timeout => hostTimeout r
  | .parsemask _ => r

/-- Inversion of `exec`: the recognizer moves as `recogAfter` says, the stimuli and the parameters stay. -/
theorem exec_next {i : Instr} {s t : State} (h : exec i s = .next t) :
    t.recog = recogAfter i s.cfg s.recog ∧ t.inputs = s.inputs ∧ t.cfg = s.cfg := by
  cases i with
  | wrreg a m v => cases h; exact buildReadWrite_frame false a m v s
  | rdreg a m v => cases h; exact buildReadWrite_frame true a m v s
  | osdLeft => cases h; exact ⟨rfl, rfl, rfl⟩
  | osdRight => cases h; exact ⟨rfl, rfl, rfl⟩
  | osdUp => cases h; exact ⟨rfl, rfl, rfl⟩
  | osdDown => cases h; exact ⟨rfl, rfl, rfl⟩
  | osdSet => cases h; exact ⟨rfl, rfl, rfl⟩
  | tInproc => cases h; exact ⟨rfl, rfl, rfl⟩
  | tSuccess => cases h; exact ⟨rfl, rfl, rfl⟩
  | tCamtimeout => cases h; exact ⟨rfl, rfl, rfl⟩
  | tFail => cases h; exact ⟨rfl, rfl, rfl⟩
  | tDisconn => cases h; exact ⟨rfl, rfl, rfl⟩
  | tCommsfail => cases h; exact ⟨rfl, rfl, rfl⟩
  | feed b => cases h; exact ⟨rfl, rfl, rfl⟩
  | arm r id => cases h; exact ⟨rfl, rfl, rfl⟩
  | timeout => cases h; exact ⟨rfl, rfl, rfl⟩
  | parsemask p => cases h; exact ⟨rfl, rfl, rfl⟩

/-- The recognizer's three kinds of move: none, a byte, an arming, a timeout. -/
theorem recogAfter_cases (i : Instr) (cfg : Config) (r : Recognizer) :
    recogAfter i cfg r = r ∨ (∃ b, recogAfter i cfg r = feedByte cfg.logDepth b r) ∨
    (∃ rd id, i = .arm rd id ∧ recogAfter i cfg r = armExchange rd id r) ∨
    recogAfter i cfg r = hostTimeout r := by
  cases i <;> simp [recogAfter]
  case tInproc => exact .inr (.inl ⟨_, rfl⟩)
  case tSuccess => exact .inr (.inl ⟨_, rfl⟩)
  case tCamtimeout => exact .inr (.inl ⟨_, rfl⟩)
  case tFail => exact .inr (.inl ⟨_, rfl⟩)
  case tDisconn => exact .inr (.inl ⟨_, rfl⟩)
  case tCommsfail => exact .inr (.inl ⟨_, rfl⟩)
  case feed b => exact .inr (.inl ⟨_, rfl⟩)

/-- Everything a step that answers a next state can have been: nothing waited, an instruction ran, or the stimulus named none
and was dropped. -/
theorem step_next {s t : State} (h : step s = .next t) :
    t = s ∨
    (∃ x rest i, s.inputs = x :: rest ∧ decode x = .ok i ∧ exec i (s.withInputs (remaining x ++ rest)) = .next t) ∨
    (∃ x rest e, s.inputs = x :: rest ∧ decode x = .error e ∧ t.recog = s.recog ∧ t.inputs = rest ∧ t.cfg = s.cfg) := by
  unfold step fetch at h
  cases hi : s.inputs with
  | nil => simp only [hi] at h; cases h; exact .inl rfl
  | cons x rest =>
    cases hd : decode x with
    | ok i => simp only [hi, hd] at h; exact .inr (.inl ⟨x, rest, i, rfl, hd, h⟩)
    | error e =>
      simp only [hi, hd] at h
      refine .inr (.inr ⟨x, rest, e, rfl, hd, ?_⟩)
      cases e <;> cases h <;> exact ⟨rfl, rfl, rfl⟩

end Sys2Proof.Machine
end

