-- ==== Sys2Proof/Laws/PerInstr.lean ====
section
/-! SUPPORT. Statements about every instruction as syntax, one lemma per constructor. -/

namespace Sys2Proof

/-- The channels of the table's formats (30_encoding.md R76). -/
inductive Channel where
  | frame
  | call
  | text
  | strobes
deriving DecidableEq, Repr

/-- The channel a stimulus arrives on. -/
def channelOf : Stimulus → Channel
  | .frame _ => .frame
  | .operands _ => .call
  | .textCommand _ _ _ _ => .call
  | .text _ => .text
  | .strobes _ => .strobes

/-- The channel of an instruction's table row; a register command with a textual mask is a call. -/
def rowChannel : Instr → Channel
  | .wrreg _ (.byte _) _ => .frame
  | .wrreg _ (.pattern _) _ => .call
  | .rdreg _ (.byte _) _ => .frame
  | .rdreg _ (.pattern _) _ => .call
  | .osdLeft => .frame
  | .osdRight => .frame
  | .osdUp => .frame
  | .osdDown => .frame
  | .osdSet => .frame
  | .tInproc => .strobes
  | .tSuccess => .strobes
  | .tCamtimeout => .strobes
  | .tFail => .strobes
  | .tDisconn => .strobes
  | .tCommsfail => .strobes
  | .feed _ => .strobes
  | .arm _ _ => .strobes
  | .timeout => .strobes
  | .parsemask _ => .text

end Sys2Proof

namespace Sys2Proof.Laws.EncodingChannel

/-- An instruction is encoded on the channel of its row. -/
def Statement (i : Instr) : Prop := channelOf (encode i) = rowChannel i

theorem wrreg (a : Addr) (m : MaskOperand) (v : Byte) : Statement (.wrreg a m v) := by cases m <;> rfl
theorem rdreg (a : Addr) (m : MaskOperand) (v : Byte) : Statement (.rdreg a m v) := by cases m <;> rfl
theorem osdLeft : Statement .osdLeft := rfl
theorem osdRight : Statement .osdRight := rfl
theorem osdUp : Statement .osdUp := rfl
theorem osdDown : Statement .osdDown := rfl
theorem osdSet : Statement .osdSet := rfl
theorem tInproc : Statement .tInproc := rfl
theorem tSuccess : Statement .tSuccess := rfl
theorem tCamtimeout : Statement .tCamtimeout := rfl
theorem tFail : Statement .tFail := rfl
theorem tDisconn : Statement .tDisconn := rfl
theorem tCommsfail : Statement .tCommsfail := rfl
theorem feed (b : Byte) : Statement (.feed b) := rfl
theorem arm (r : Bool) (id : Nat) : Statement (.arm r id) := rfl
theorem timeout : Statement .timeout := rfl
theorem parsemask (p : List Char) : Statement (.parsemask p) := rfl

end Sys2Proof.Laws.EncodingChannel
end

