-- ==== Sys2Proof/Tests/Slice0.lean ====
section
/-! SUPPORT. The model's own tests: words written out from the spec's encodings, smoke tests of WellFormed, one-step vectors of
95_test_vectors.md, and a witness for every statement that has hypotheses. Expected values come from spec/, never from the
model. -/

namespace Sys2Proof.Tests

open Sys2Proof Sys2Proof.Machine

/-! ## States the tests use -/

/-- A recognizer in the given position of an exchange with the given log, everything else as `ARM isRead, 7` leaves it. -/
def awaiting (st : SeqState) (isRead : Bool) (log : List Byte) : Recognizer :=
  { Recognizer.reset with st := st, armedIsRead := isRead, cmdId := 7, log := log }

/-- The reset machine with another recognizer. -/
def at' (r : Recognizer) : State := { State.reset with recog := r }

/-- The reset machine with stimuli waiting. -/
def having (inputs : List Stimulus) : State := { State.reset with inputs := inputs }

/-- The reset machine under `ADDR_POLICY` = `refuse` and `LOG_DEPTH` = 3. -/
def refusing : State := { State.reset with cfg := { logDepth := some 3, addrPolicy := .refuse } }

/-- The recognizer a next state holds. -/
def recogOf : Host.Outcome State Fault Refusal → Option Recognizer
  | .next s => some s.recog
  | .fault _ => none
  | .refused _ => none

/-- The encoder output a next state holds. -/
def outOf : Host.Outcome State Fault Refusal → Option EncOut
  | .next s => some s.encOut
  | .fault _ => none
  | .refused _ => none

/-- The front-end answer a next state holds. -/
def textOf : Host.Outcome State Fault Refusal → Option TextOut
  | .next s => some s.textOut
  | .fault _ => none
  | .refused _ => none

/-! ## Decoding: words written out from the spec's encodings -/

/-- Row WRREG of the table bit by bit, for V16: mask 0x30, address 0x041B, value 0x90, checksum 0x2B. -/
theorem test_decode_wrreg_bits :
    decodeTableWord 64 0b1111111000000101001100000000000000011011000100000010101100101010 =
      some (.wrreg 0x041B (.byte 0x30) 0x90) := by decide
/-- V3: all relocated bits of a page-1 write. -/
theorem test_decode_wrreg_v3 : decodeTableWord 64 0xFE1D00016200632A = some (.wrreg 0x05E2 (.byte 0x80) 0x80) := by decide
/-- Row RDREG bit by bit, for V2: mask 0xFF, address 0x04B1, value 0x00, checksum 0x31. -/
theorem test_decode_rdreg_bits :
    decodeTableWord 64 0b1111111001011001011111110000000000110001000000000011000100101010 =
      some (.rdreg 0x04B1 (.byte 0xFF) 0x00) := by decide
/-- O1 to O5. -/
theorem test_decode_osd :
    decodeTableWord 64 0b1111111001000001000000000000001000000000000000010000001100101010 = some .osdLeft ∧
    decodeTableWord 64 0b1111111001000001000000000000001000000000000000100000010000101010 = some .osdRight ∧
    decodeTableWord 64 0b1111111001000001000000000000001000000000000000110000010100101010 = some .osdUp ∧
    decodeTableWord 64 0b1111111001000001000000000000001000000000000001000000011000101010 = some .osdDown ∧
    decodeTableWord 64 0b1111111001000001000000000000001000000000000001010000011100101010 = some .osdSet := by decide
/-- The token rows bit by bit (R72). -/
theorem test_decode_tokens :
    decodeTableWord 8 0b01000101 = some .tInproc ∧ decodeTableWord 8 0b01010101 = some .tSuccess ∧
    decodeTableWord 8 0b01010100 = some .tCamtimeout ∧ decodeTableWord 8 0b01000110 = some .tFail ∧
    decodeTableWord 8 0b01000100 = some .tDisconn ∧ decodeTableWord 8 0b01000011 = some .tCommsfail := by decide
/-- Row FEED at the two ends of its range. -/
theorem test_decode_feed : decodeTableWord 8 0x00 = some (.feed 0x00) ∧ decodeTableWord 8 0xFF = some (.feed 0xFF) := by decide
/-- The strobes of R27, and PARSEMASK's text. -/
theorem test_decode_ports :
    decode (.strobes { Strobes.none with arm := true, armIsRead := true, armCmdId := 7 }) = .ok (.arm true 7) ∧
    decode (.strobes { Strobes.none with timeout := true }) = .ok .timeout ∧
    decode (.text ['1', '0']) = .ok (.parsemask ['1', '0']) := by decide
/-- The frames section 2.1 says `decodeReg` rejects. -/
theorem test_decode_rejects :
    decodeTableWord 64 0xFE4B0F002800282A = none ∧ decodeTableWord 64 0xFE117F00170C242A = none ∧
    decodeTableWord 64 0xFE317F00170C232A = none ∧ decodeTableWord 64 0xFE107F00170C232A = none ∧
    decodeTableWord 64 0xFE117F00170C23AA = none := by decide
/-- Bytes that are no frame are rejected by name. -/
theorem test_decode_rejects_by_name :
    decodeBytes [] = .error .notEightBytes ∧
    decodeBytes [0xFF, 0x11, 0x7F, 0x00, 0x17, 0x0C, 0x23, 0x2A] = .error .startByte ∧
    decodeBytes [0xFE, 0x10, 0x7F, 0x00, 0x17, 0x0C, 0x23, 0x2A] = .error .headerStatusBit ∧
    decodeBytes [0xFE, 0x11, 0xFF, 0x00, 0x17, 0x0C, 0x23, 0x2A] = .error .unstrippedByte ∧
    decodeBytes [0xFE, 0x11, 0x7F, 0x02, 0x17, 0x0C, 0x25, 0x2A] = .error .pageByte := by decide
/-- The encoder writes V5's frame. -/
theorem test_encode_v5 :
    encode (.wrreg 0x04FF (.byte 0xFF) 0xFF) = .frame [0xFE, 0x1F, 0x7F, 0x00, 0x7F, 0x7F, 0x7E, 0x2A] := by decide

/-! ## WellFormed refuses -/

theorem smoke_address_below : (Instr.wrreg 0x03FF (.byte 0) 0).wellFormed = false := by decide
theorem smoke_address_above : (Instr.rdreg 0x0600 (.byte 0) 0).wellFormed = false := by decide
theorem smoke_mask_text : (Instr.wrreg 0x0400 (.pattern ['1']) 0).wellFormed = false := by decide
theorem smoke_feed_of_token : (Instr.feed 0x45).wellFormed = false := by decide
theorem smoke_pattern_seven_digits : (Instr.parsemask ['1', '0', '1', '0', ' ', '0', '1', '0']).wellFormed = false := by decide
theorem smoke_pattern_digit : (Instr.parsemask ['1', '0', '1', '0', ' ', '0', '1', '0', '2']).wellFormed = false := by decide
theorem smoke_pattern_separator :
    (Instr.parsemask ['1', '1', '1', '1', '_', '0', '0', '0', '0']).wellFormed = false := by decide
theorem smoke_accepts : (Instr.wrreg 0x05FF (.pattern ['1', '0', '1', '0', ' ', '0', '1', '0', '1']) 0).wellFormed = true := by
  decide

/-! ## One step of every instruction (vectors of 95_test_vectors.md) -/

theorem test_wrreg_v1 : outOf (exec (.wrreg 0x0417 (.byte 0xFF) 0x0C) State.reset) =
    some (.frame ⟨0xFE, 0x11, 0x7F, 0x00, 0x17, 0x0C, 0x23, 0x2A⟩) := by decide
theorem test_wrreg_v20_aliases_and_is_refused :
    outOf (exec (.wrreg 0x03FF (.byte 0) 0) State.reset) =
      some (.frame ⟨0xFE, 0x09, 0x00, 0x00, 0x7F, 0x00, 0x7F, 0x2A⟩) ∧
    outOf (exec (.wrreg 0x03FF (.byte 0) 0) refusing) = some (.refused .addressRange) := by decide
theorem test_rdreg_v6 : outOf (exec (.rdreg 0x04A8 (.byte 0x0F) 0x00) State.reset) =
    some (.frame ⟨0xFE, 0x49, 0x0F, 0x00, 0x28, 0x00, 0x28, 0x2A⟩) := by decide
theorem test_rdreg_v8 : outOf (exec (.rdreg 0x05FF (.byte 0xFF) 0xFF) State.reset) =
    some (.frame ⟨0xFE, 0x5F, 0x7F, 0x01, 0x7F, 0x7F, 0x7F, 0x2A⟩) := by decide
theorem test_osd_right : outOf (exec .osdRight State.reset) =
    some (.frame ⟨0xFE, 0x41, 0x00, 0x02, 0x00, 0x02, 0x04, 0x2A⟩) := by decide
/-- M5. -/
theorem test_parsemask_m5 : textOf (exec (.parsemask ['0', '0', '1', '1', ' ', '0', '0', '0', '0']) State.reset) =
    some (.mask 0x30) := by decide
/-- M8: two spaces. -/
theorem test_parsemask_m8 : textOf (exec (.parsemask ['1', '0', '1', '0', ' ', ' ', '0', '1', '0', '1']) State.reset) =
    some .formatError := by decide
/-- P4: the good pattern of the second half, in a register command. -/
theorem test_wrreg_text_mask : outOf (exec (.wrreg 0x0406 (.pattern ['1', '1', '1', '1', ' ', '0', '0', '0', '0']) 0x20)
    State.reset) = some (.frame ⟨0xFE, 0x11, 0x70, 0x00, 0x06, 0x20, 0x26, 0x2A⟩) := by decide
/-- R121's worked example. -/
theorem test_arm : recogOf (exec (.arm true 7) State.reset) = some (awaiting .awaitingAck true []) := by decide
/-- T27: an `ARM` while an exchange is awaited. -/
theorem test_arm_while_busy : recogOf (exec (.arm false 7) (at' (awaiting .awaitingResult true [0x45]))) =
    some (awaiting .awaitingAck false []) := by decide
/-- T3's middle. -/
theorem test_inproc : recogOf (exec .tInproc (at' (awaiting .awaitingAck true []))) =
    some (awaiting .awaitingResult true [0x45]) := by decide
/-- T11: a second in-process token. -/
theorem test_inproc_twice : recogOf (exec .tInproc (at' (awaiting .awaitingResult false [0x45]))) =
    some { awaiting .complete false [0x45, 0x45] with err := .protocol, errByte := some 0x45 } := by decide
/-- T1's end. -/
theorem test_success_of_write : recogOf (exec .tSuccess (at' (awaiting .awaitingResult false [0x45]))) =
    some { awaiting .complete false [0x45, 0x55] with success := true } := by decide
/-- T8: the success token without an acknowledgement. -/
theorem test_success_too_early : recogOf (exec .tSuccess (at' (awaiting .awaitingAck false []))) =
    some { awaiting .complete false [0x55] with err := .protocol, errByte := some 0x55 } := by decide
/-- T13. -/
theorem test_camtimeout : recogOf (exec .tCamtimeout (at' (awaiting .awaitingResult true [0x45]))) =
    some { awaiting .complete true [0x45, 0x54] with err := .comms, errByte := some 0x54 } := by decide
/-- T5. -/
theorem test_fail : recogOf (exec .tFail (at' (awaiting .awaitingAck false []))) =
    some { awaiting .complete false [0x46] with err := .comms, errByte := some 0x46 } := by decide
/-- T12. -/
theorem test_disconn : recogOf (exec .tDisconn (at' (awaiting .awaitingResult true [0x45]))) =
    some { awaiting .complete true [0x45, 0x44] with err := .disconnected, errByte := some 0x44 } := by decide
/-- T17: a token value as data. -/
theorem test_disconn_as_payload : recogOf (exec .tDisconn (at' (awaiting .awaitingPayload true [0x45, 0x55]))) =
    some { awaiting .complete true [0x45, 0x55, 0x44] with success := true, payload := some 0x44 } := by decide
/-- T6. -/
theorem test_commsfail : recogOf (exec .tCommsfail (at' (awaiting .awaitingAck false []))) =
    some { awaiting .complete false [0x43] with err := .comms, errByte := some 0x43 } := by decide
/-- T2's end. -/
theorem test_feed_payload : recogOf (exec (.feed 0x0C) (at' (awaiting .awaitingPayload true [0x45, 0x55]))) =
    some { awaiting .complete true [0x45, 0x55, 0x0C] with success := true, payload := some 0x0C } := by decide
/-- X5's last byte: processed, not logged. -/
theorem test_feed_full_log :
    recogOf (exec (.feed 0x55) { refusing with recog := awaiting .complete false [0x45, 0x55, 0x55] }) =
      some { awaiting .complete false [0x45, 0x55, 0x55] with logOvf := true, spurious := true } := by decide
/-- T21. -/
theorem test_timeout : recogOf (exec .timeout (at' (awaiting .awaitingResult false [0x45]))) =
    some { awaiting .complete false [0x45] with err := .timeout } := by decide
/-- T29: no `ARM` since reset. -/
theorem test_timeout_in_complete : recogOf (exec .timeout State.reset) = some Recognizer.reset := by decide
/-- X1: the byte completes the exchange before the same sample's `TIMEOUT` is applied. -/
theorem test_same_cycle : recogOf (step { at' (awaiting .awaitingResult false [0x45]) with
    inputs := [.strobes { Strobes.none with rxValid := true, rxByte := 0x55, timeout := true }] }) =
    some { awaiting .complete false [0x45, 0x55] with success := true } := by decide
/-- O6: the operand port values that name no operation. -/
theorem test_osd_port_refused : outOf (step (having [.operands ⟨0, 0, 0, false, true, 6⟩])) =
    some (.refused .osdOperation) := by decide
/-- V6 through the operand ports, with `enc_osd_op` ignored: `enc_valid` and the 64-bit `enc_frame` (R27, R61). -/
theorem test_enc_ports_v6 :
    (outOf (step (having [.operands ⟨0x04A8, 0x0F, 0x00, true, false, 6⟩]))).map (fun o => (encValid o, encFrame o)) =
      some (some true, some 0xFE490F002800282A) := by decide
/-- Operands refused by the policy: `enc_valid` is 0 (V20, R27). -/
theorem test_enc_ports_refused :
    (outOf (step { refusing with inputs := [.operands ⟨0x03FF, 0, 0, false, false, 1⟩] })).map encValid =
      some (some false) := by decide
/-- The first step after reset runs the word placed for it. -/
theorem test_fetch_word : outOf (step (State.reset.withFetchWord 64 0xFE4100020005072A)) =
    some (.frame ⟨0xFE, 0x41, 0x00, 0x02, 0x00, 0x05, 0x07, 0x2A⟩) := by decide
/-- R44: the columns of the map, for one mask and value. -/
theorem test_register_map : registerMap.length = 13 ∧ ∀ row ∈ registerMap,
    (encodeReg row.address 0 0 false).adh = row.adh ∧ (encodeReg row.address 0 0 false).adl = row.adl := by decide

/-! ## Witnesses: states and operands that meet the statements' hypotheses -/

theorem witness_register_command_formula :
    State.reset.cfg.addrPolicy = .formula ∧ ¬ (0x0400 ≤ (0x03FF : Addr).toNat) := by decide
theorem witness_register_command_in_range :
    refusing.cfg.addrPolicy ≠ .formula ∧ (0x0400 ≤ (0x0400 : Addr).toNat ∧ (0x0400 : Addr).toNat ≤ 0x05FF) ∧
    (0x0400 ≤ (0x05FF : Addr).toNat ∧ (0x05FF : Addr).toNat ≤ 0x05FF) := by decide
theorem witness_refusing_policy :
    refusing.cfg.addrPolicy = .refuse ∧ (0x03FF : Addr).toNat < 0x0400 ∧ 0x05FF < (0x0600 : Addr).toNat := by decide
/-- A text of each written form and one of neither (M6, M5, M7). -/
theorem witness_texts :
    ['1', '0', '1', '0', '0', '1', '0', '1'] = patternText false 0xA5 ∧
    ['0', '0', '1', '1', ' ', '0', '0', '0', '0'] = patternText true 0x30 ∧
    ∀ m spaced, ['1', '0', '1', '0', ' ', '0', '1', '0'] ≠ patternText spaced m := by decide
theorem witness_page_boundary :
    ((0x0400 : Addr).toNat < 0x0500 ∧ (0x04FF : Addr).toNat < 0x0500) ∧ ¬ (0x0500 : Addr).toNat < 0x0500 ∧
    (0x0500 : Addr).toNat % 256 = (0x0400 : Addr).toNat % 256 ∧ (0x0500 : Addr).toNat ≤ 0x05FF := by decide
theorem witness_alias_injective :
    0x0400 ≤ (0x0400 : Addr).toNat ∧ (0x0400 : Addr).toNat ≤ 0x05FF ∧ 0x0400 ≤ (0x05FF : Addr).toNat ∧
    encodeReg 0x0400 0x80 0x01 true = encodeReg 0x0400 0x80 0x01 true ∧
    encodeReg 0x05FF 0x80 0x01 true = encodeReg 0x05FF 0x80 0x01 true := by decide
/-- Two machines of one configuration with different recognizers and outputs. -/
theorem witness_same_operands :
    State.reset.cfg = (at' (awaiting .awaitingAck true [])).cfg ∧ Instr.osdSet ∈ [Instr.osdLeft, .osdRight, .osdUp, .osdDown,
      .osdSet] := by decide
theorem witness_map_row : (⟨0x417, "Gain", 0x00, 0x17, false⟩ : RegisterRow) ∈ registerMap := by decide
theorem witness_osd_port (op : BitVec 3) :
    (having [.operands ⟨0, 0, 0, false, true, op⟩]).inputs = [.operands ⟨0, 0, 0, false, true, op⟩] := rfl
/-- The operand ports at the ends of the address range, and an address the policy refuses. -/
theorem witness_register_ports (a : Addr) :
    (having [.operands ⟨a, 0xFF, 0x80, true, false, 6⟩]).inputs = [.operands ⟨a, 0xFF, 0x80, true, false, 6⟩] ∧
    State.reset.cfg.addrPolicy = .formula ∧ refusing.cfg.addrPolicy = .refuse ∧
    (0x0400 : Addr).toNat = 0x0400 ∧ (0x05FF : Addr).toNat = 0x05FF ∧ (0x03FF : Addr).toNat < 0x0400 ∧
    0x05FF < (0x0600 : Addr).toNat := ⟨rfl, by decide⟩
theorem witness_wellformed :
    (Instr.wrreg 0x0400 (.byte 0xFF) 0xFF).wellFormed = true ∧ (Instr.rdreg 0x05FF (.byte 0) 0).wellFormed = true ∧
    (Instr.feed 0xFF).wellFormed = true ∧ (Instr.arm true 3).wellFormed = true ∧
    (Instr.parsemask ['0', '0', '0', '0', '1', '1', '1', '1']).wellFormed = true := by decide
/-- V1 and V8, an in-range address of each page. -/
theorem witness_decode_frame :
    decodeFrame ⟨0xFE, 0x11, 0x7F, 0x00, 0x17, 0x0C, 0x23, 0x2A⟩ = .ok (.wrreg 0x0417 (.byte 0xFF) 0x0C) ∧
    decodeFrame ⟨0xFE, 0x41, 0x00, 0x02, 0x00, 0x04, 0x06, 0x2A⟩ = .ok .osdDown ∧
    decodeReg ⟨0xFE, 0x5F, 0x7F, 0x01, 0x7F, 0x7F, 0x7F, 0x2A⟩ =
      .ok { isRead := true, address := 0x05FF, mask := 0xFF, value := 0xFF } := by decide
theorem witness_step_decodes :
    (having [rxStimulus 0x45, .text []]).inputs = rxStimulus 0x45 :: [.text []] ∧ decode (rxStimulus 0x45) = .ok .tInproc := by
  decide
theorem witness_step_without_instruction :
    State.reset.inputs = [] ∧ (having [.strobes Strobes.none]).inputs = [.strobes Strobes.none] ∧
    Strobes.none.rxValid = false ∧ Strobes.none.timeout = false ∧ Strobes.none.arm = false ∧
    (having [.frame [0xFE]]).inputs = [.frame [0xFE]] ∧ decodeBytes [0xFE] = .error .notEightBytes := by decide
theorem witness_strobes :
    (having [.strobes ⟨true, 0x44, true, true, true, 2⟩]).inputs = .strobes ⟨true, 0x44, true, true, true, 2⟩ :: [] ∧
    (having [.strobes ⟨false, 0, false, true, false, 0⟩]).inputs = .strobes ⟨false, 0, false, true, false, 0⟩ :: [] := by
  decide
theorem witness_awaiting_ack : (at' (awaiting .awaitingAck false [])).recog.st = .awaitingAck ∧ (0x45 : Byte) = 0x45 ∧
    (0x44 : Byte) ≠ 0x45 ∧ (0x46 : Byte) ≠ 0x45 ∧ (0x55 : Byte) ≠ 0x45 := by decide
theorem witness_awaiting_result :
    (at' (awaiting .awaitingResult true [0x45])).recog.armedIsRead = true ∧
    (at' (awaiting .awaitingResult false [0x45])).recog.armedIsRead = false ∧
    (at' (awaiting .awaitingResult false [0x45])).recog.st = .awaitingResult ∧ (0x54 : Byte) ≠ 0x55 := by decide
theorem witness_awaiting_payload : (at' (awaiting .awaitingPayload true [0x45, 0x55])).recog.st = .awaitingPayload ∧
    State.reset.recog.st = .complete ∧ (at' (awaiting .awaitingPayload true [0x45, 0x55])).recog.st ≠ .complete := by decide
theorem witness_token_rows : (Instr.tFail, (0x46 : Byte)) ∈ [(Instr.tInproc, (0x45 : Byte)), (.tSuccess, 0x55),
    (.tCamtimeout, 0x54), (.tFail, 0x46), (.tDisconn, 0x44), (.tCommsfail, 0x43)] := by decide
/-- A byte with room (unbounded, and 2 of 3), and a byte without (3 of 3). -/
theorem witness_log_room :
    (∃ t, exec (.feed 1) State.reset = .next t) ∧ receivedByte (.feed 1) = some 1 ∧ State.reset.cfg.logDepth = none ∧
    refusing.cfg.logDepth = some 3 ∧ (awaiting .complete false [1, 2]).log.length < 3 ∧
    3 ≤ (awaiting .complete false [1, 2, 3]).log.length ∧ receivedByte .osdSet = none ∧ isArm .osdSet = false :=
  ⟨⟨_, rfl⟩, by decide⟩
/-- The read flag may differ: a timeout in any state, another byte than 0x55, any byte outside `AwaitingResult`; it decides on
the success byte there. -/
theorem witness_read_flag :
    (∃ t, exec .timeout State.reset = .next t) ∧ isArm .timeout = false ∧ receivedByte .timeout ≠ some 0x55 ∧
    receivedByte .tFail ≠ some 0x55 ∧ (awaiting .awaitingAck true []).st ≠ .awaitingResult ∧
    receivedByte .tSuccess = some 0x55 ∧ (awaiting .awaitingResult true [0x45]).st = .awaitingResult :=
  ⟨⟨_, rfl⟩, by decide⟩
/-- Both ways to success, and a failure. -/
theorem witness_success :
    (∃ t, exec .tSuccess (at' (awaiting .awaitingResult false [0x45])) = .next t ∧ t.recog.success = true) ∧
    (∃ t, exec .tSuccess (at' (awaiting .awaitingPayload true [0x45, 0x55])) = .next t ∧ t.recog.success = true) ∧
    (∃ t, exec .tFail (at' (awaiting .awaitingAck false [])) = .next t ∧ t.recog.success = false) :=
  ⟨⟨_, rfl, rfl⟩, ⟨_, rfl, rfl⟩, ⟨_, rfl, rfl⟩⟩
theorem witness_forward : (∃ t, exec .tInproc (at' (awaiting .awaitingAck false [])) = .next t) ∧ isArm .tInproc = false ∧
    receivedByte .osdLeft = none ∧ Instr.osdLeft ≠ .timeout := ⟨⟨_, rfl⟩, by decide⟩
/-- Every code from a state with no failure recorded. -/
theorem witness_failures :
    (∃ t, exec .tDisconn (at' (awaiting .awaitingAck false [])) = .next t ∧ t.recog.err = .disconnected) ∧
    (∃ t, exec .tCommsfail (at' (awaiting .awaitingResult false [0x45])) = .next t ∧ t.recog.err = .comms) ∧
    (∃ t, exec .tSuccess (at' (awaiting .awaitingAck false [])) = .next t ∧ t.recog.err = .protocol) ∧
    (∃ t, exec .timeout (at' (awaiting .awaitingPayload true [0x45, 0x55])) = .next t ∧ t.recog.err = .timeout) ∧
    (awaiting .awaitingAck false []).err = .none := ⟨⟨_, rfl, rfl⟩, ⟨_, rfl, rfl⟩, ⟨_, rfl, rfl⟩, ⟨_, rfl, rfl⟩, rfl⟩
theorem witness_payload : ∃ t, exec (.feed 0x0C) (at' (awaiting .awaitingPayload true [0x45, 0x55])) = .next t ∧
    t.recog.payload = some 0x0C ∧ (awaiting .awaitingPayload true [0x45, 0x55]).payload ≠ some 0x0C :=
  ⟨_, rfl, rfl, by decide⟩
theorem witness_apart : (∃ t, exec .osdUp State.reset = .next t) ∧ receivedByte .osdUp = none ∧ isArm .osdUp = false ∧
    Instr.osdUp ≠ .timeout ∧ isArm (.arm true 1) = true := ⟨⟨_, rfl⟩, by decide⟩

/-- A read exchange waiting for its payload, the payload byte at the ports. -/
def busy : State :=
  { at' (awaiting .awaitingPayload true [tokInproc, tokSuccess]) with inputs := [rxStimulus 0x0C] }

theorem witness_recog_inv : RecogInv busy.recog ∧ ∃ t, step busy = .next t ∧ t.recog.success = true := by
  refine ⟨?_, _, rfl, rfl⟩
  constructor <;> simp [busy, at', awaiting, Recognizer.reset]
theorem witness_failure_explained : FailureExplained busy.recog ∧ ∃ t, step busy = .next t :=
  ⟨⟨fun _ h => (nomatch h), fun h => absurd rfl h⟩, _, rfl⟩
/-- A full log of depth 3 and one more byte. -/
theorem witness_log_bounded :
    let s := { refusing with recog := awaiting .complete false [1, 2, 3], inputs := [rxStimulus 4] }
    LogBounded s.cfg s.recog ∧ ∃ t, step s = .next t ∧ t.recog.logOvf = true := by
  refine ⟨⟨fun d h => ?_, fun h => (nomatch h)⟩, _, rfl, rfl⟩
  cases h; decide
theorem witness_log_tells : busy.cfg.wf = true ∧ LogTellsExchange busy.recog ∧ ∃ t, step busy = .next t := by
  refine ⟨rfl, ?_, _, rfl⟩
  simp [LogTellsExchange, busy, at', awaiting, Recognizer.reset]
theorem witness_producible : EncOutProducible (having [.frame [0xFE, 0x41, 0x00, 0x02, 0x00, 0x01, 0x03, 0x2A]]) ∧
    ∃ t f, step (having [.frame [0xFE, 0x41, 0x00, 0x02, 0x00, 0x01, 0x03, 0x2A]]) = .next t ∧ t.encOut = .frame f :=
  ⟨fun _ h => (nomatch h), _, _, rfl, rfl⟩
theorem witness_never_armed : ¬ NeverArmed busy.recog ∧ ∃ t, step busy = .next t :=
  ⟨by simp [NeverArmed, busy, at', awaiting], _, rfl⟩
theorem witness_outcome_stands :
    (∀ i ∈ [Instr.tSuccess, .timeout, .osdSet], isArm i = false) ∧
    (awaiting .complete false [0x45, 0x55]).st = .complete := by decide
/-- Enough bytes for a read, for a write, and a timeout alone. -/
theorem witness_completes :
    (∀ i ∈ [Instr.tInproc, .osdSet, .tSuccess, .feed 0x0C], isArm i = false) ∧
    3 ≤ ([Instr.tInproc, .osdSet, .tSuccess, .feed 0x0C].filterMap receivedByte).length ∧
    2 ≤ ([Instr.tInproc, .tSuccess].filterMap receivedByte).length ∧ Instr.timeout ∈ [Instr.timeout] := by decide
theorem witness_unbounded : State.reset.cfg.logDepth = none ∧ ∀ i ∈ [Instr.tInproc, .timeout], isArm i = false := by decide
/-- The same exchange with a bounded and an unbounded log. -/
theorem witness_same_but_log :
    SameButLog { awaiting .complete false [1, 2, 3] with logOvf := true } (awaiting .complete false [1, 2, 3, 4]) ∧
    refusing.cfg ≠ State.reset.cfg := ⟨rfl, by decide⟩
theorem witness_same_but_tag :
    SameButTag (at' (awaiting .awaitingAck true [])) (at' { awaiting .awaitingAck true [] with cmdId := 8 }) := rfl
theorem witness_response_bytes : (0x44 : Byte) ≠ 0x45 ∧ (0x45 : Byte) ≠ 0x55 ∧ (0x00 : Byte) ≠ 0x45 := by decide

end Sys2Proof.Tests
end

