-- ==== Sys2Proof/Laws/Events.lean ====
section
/-! SUPPORT. What the recognizer's events do, said once for every instruction: the four kinds of instruction (R10, R120), how
`exec` acts on the recognizer and on the outputs, what a received byte and `TIMEOUT` leave unchanged, and the induction over
steps and runs. -/

namespace Sys2Proof.Machine

/-! ## The kinds of instructions -/

/-- An instruction of the encoder's side or of the text front end: it delivers no byte and is no event of the host. -/
def IsEncoderSide (i : Instr) : Prop := receivedByte i = none ∧ isArm i = false ∧ i ≠ .timeout

theorem isArm_iff {i : Instr} : isArm i = true ↔ ∃ isRead cmdId, i = .arm isRead cmdId := by
  cases i <;> simp [isArm]

/-- Every instruction is of the encoder's side, delivers a byte, or is one of the host's two events (R10, R120). -/
theorem instr_kinds (i : Instr) :
    IsEncoderSide i ∨ (∃ b, receivedByte i = some b) ∨ (∃ isRead cmdId, i = .arm isRead cmdId) ∨ i = .timeout := by
  cases hb : receivedByte i with
  | some b => exact .inr (.inl ⟨b, rfl⟩)
  | none =>
    cases ha : isArm i with
    | true => exact .inr (.inr (.inl (isArm_iff.mp ha)))
    | false =>
      by_cases ht : i = .timeout
      · exact .inr (.inr (.inr ht))
      · exact .inl ⟨hb, ha, ht⟩

theorem recogAfter_of_encoderSide {i : Instr} (hi : IsEncoderSide i) (cfg : Config) (r : Recognizer) :
    recogAfter i cfg r = r := by
  cases i <;> simp [IsEncoderSide, receivedByte, isArm, recogAfter] at hi ⊢

theorem recogAfter_of_receivedByte {i : Instr} {b : Byte} (hb : receivedByte i = some b) (cfg : Config)
    (r : Recognizer) : recogAfter i cfg r = feedByte cfg.logDepth b r := by
  cases i <;> cases hb <;> rfl

@[simp] theorem recogAfter_arm (isRead : Bool) (cmdId : Nat) (cfg : Config) (r : Recognizer) :
    recogAfter (.arm isRead cmdId) cfg r = armExchange isRead cmdId r := rfl

@[simp] theorem recogAfter_timeout (cfg : Config) (r : Recognizer) : recogAfter .timeout cfg r = hostTimeout r := rfl

/-! ## Instructions on the machine -/

theorem exec_total (i : Instr) (s : State) : ∃ t, exec i s = .next t := by
  cases i <;> exact ⟨_, rfl⟩

/-- An event of the recognizer moves the recognizer and touches nothing else. -/
theorem exec_of_event {i : Instr} (hi : ¬ IsEncoderSide i) (s : State) :
    exec i s = .next (s.withRecog (recogAfter i s.cfg s.recog)) := by
  obtain henc | ⟨b, hb⟩ | ⟨isRead, cmdId, rfl⟩ | rfl := instr_kinds i
  · exact absurd henc hi
  · cases i <;> cases hb <;> rfl
  · rfl
  · rfl

theorem buildReadWrite_withRecog (isRead : Bool) (a : Addr) (mask : MaskOperand) (v : Byte) (s : State)
    (r : Recognizer) :
    buildReadWrite isRead a mask v (s.withRecog r) = (buildReadWrite isRead a mask v s).withRecog r := by
  cases mask with
  | byte m => rfl
  | pattern text => cases h : parseMask text <;> simp only [buildReadWrite, h] <;> rfl

/-- The outputs are computed without the recognizer (R12, R53): with another recognizer an instruction does to everything
else what it did, and to the recognizer what `recogAfter` says. -/
theorem exec_withRecog {i : Instr} {s t : State} (h : exec i s = .next t) (r : Recognizer) :
    exec i (s.withRecog r) = .next (t.withRecog (recogAfter i s.cfg r)) := by
  cases i with
  | wrreg a m v => cases h; exact congrArg _ (buildReadWrite_withRecog false a m v s r)
  | rdreg a m v => cases h; exact congrArg _ (buildReadWrite_withRecog true a m v s r)
  | _ => cases h; rfl

theorem runEvents_cons {i : Instr} {events : List Instr} {s t : State} (h : exec i s = .next t) :
    runEvents (i :: events) s = runEvents events t := by
  simp only [runEvents, h]

/-! ## What a received byte and a timeout leave unchanged -/

section
variable (depth : Option Nat) (b : Byte) (r : Recognizer)

/-- A received byte is logged whatever else it does, and the operands of `ARM` stand. -/
theorem feedByte_frame :
    (feedByte depth b r).log = (appendLog depth b r).log ∧ (feedByte depth b r).logOvf = (appendLog depth b r).logOvf ∧
    (feedByte depth b r).armedIsRead = r.armedIsRead ∧ (feedByte depth b r).cmdId = r.cmdId := by
  obtain ⟨-, -, h⟩ | ⟨-, -, -, h⟩ | ⟨-, -, -, h⟩ | ⟨-, h⟩ | ⟨-, h⟩ | ⟨-, h⟩ := feedByte_cases depth b r <;> simp [h]

@[simp] theorem feedByte_log : (feedByte depth b r).log = (appendLog depth b r).log := (feedByte_frame depth b r).1

@[simp] theorem feedByte_logOvf : (feedByte depth b r).logOvf = (appendLog depth b r).logOvf :=
  (feedByte_frame depth b r).2.1

@[simp] theorem feedByte_armedIsRead : (feedByte depth b r).armedIsRead = r.armedIsRead :=
  (feedByte_frame depth b r).2.2.1

@[simp] theorem feedByte_cmdId : (feedByte depth b r).cmdId = r.cmdId := (feedByte_frame depth b r).2.2.2

/-- `TIMEOUT` is no byte: log, operands and payload stand. -/
theorem hostTimeout_frame :
    (hostTimeout r).log = r.log ∧ (hostTimeout r).logOvf = r.logOvf ∧ (hostTimeout r).armedIsRead = r.armedIsRead ∧
    (hostTimeout r).cmdId = r.cmdId ∧ (hostTimeout r).payload = r.payload := by
  obtain ⟨-, h⟩ | ⟨-, h⟩ := hostTimeout_cases r <;> simp [h]

@[simp] theorem hostTimeout_log : (hostTimeout r).log = r.log := (hostTimeout_frame r).1

@[simp] theorem hostTimeout_logOvf : (hostTimeout r).logOvf = r.logOvf := (hostTimeout_frame r).2.1

@[simp] theorem hostTimeout_armedIsRead : (hostTimeout r).armedIsRead = r.armedIsRead := (hostTimeout_frame r).2.2.1

@[simp] theorem hostTimeout_cmdId : (hostTimeout r).cmdId = r.cmdId := (hostTimeout_frame r).2.2.2.1

@[simp] theorem hostTimeout_payload : (hostTimeout r).payload = r.payload := (hostTimeout_frame r).2.2.2.2

end

/-- The code of a failing byte is one of three (R122). -/
theorem failCode_cases (b : Byte) : failCode b = .disconnected ∨ failCode b = .comms ∨ failCode b = .protocol := by
  unfold failCode
  cases classOf b <;> simp

@[simp] theorem failCode_ne_none (b : Byte) : failCode b ≠ .none := by
  obtain h | h | h := failCode_cases b <;> simp [h]

@[simp] theorem failCode_ne_timeout (b : Byte) : failCode b ≠ .timeout := by
  obtain h | h | h := failCode_cases b <;> simp [h]

/-! ## Induction over steps -/

/-- What a step can do to the recognizer: nothing, or the move of one instruction; the parameters stay. -/
theorem step_recog {s t : State} (h : step s = .next t) :
    t.cfg = s.cfg ∧ (t.recog = s.recog ∨ ∃ i, t.recog = recogAfter i s.cfg s.recog) := by
  obtain rfl | ⟨x, rest, i, -, -, hx⟩ | ⟨x, rest, e, -, -, hr, -, hc⟩ := step_next h
  · exact ⟨rfl, .inl rfl⟩
  · obtain ⟨hr, -, hc⟩ := exec_next hx
    exact ⟨hc, .inr ⟨i, hr⟩⟩
  · exact ⟨hc, .inl hr⟩

/-- A property of the parameters and the recognizer that a received byte, `ARM` and `TIMEOUT` keep is kept by every step. -/
theorem step_keeps {P : Config → Recognizer → Prop}
    (feed : ∀ cfg b r, P cfg r → P cfg (feedByte cfg.logDepth b r))
    (arm : ∀ cfg isRead cmdId r, P cfg (armExchange isRead cmdId r))
    (timeout : ∀ cfg r, P cfg r → P cfg (hostTimeout r))
    {s t : State} (hs : P s.cfg s.recog) (h : step s = .next t) : P t.cfg t.recog := by
  obtain ⟨hc, hr | ⟨i, hr⟩⟩ := step_recog h <;> rw [hc, hr]
  · exact hs
  · obtain hi | ⟨b, hi⟩ | ⟨isRead, cmdId, hi⟩ | hi := recogAfter_cases i s.cfg s.recog
    · rwa [hi]
    · rw [hi]; exact feed _ _ _ hs
    · rw [hi.2]; exact arm _ _ _ _
    · rw [hi]; exact timeout _ _ hs

end Sys2Proof.Machine
end

