-- ==== Sys2Proof/Proofs/Invariants.lean ====
section
/-! PROOFS. The invariants of the recognizer (R26), of its log (R21, R22) and of the armed state, kept by every step. -/

namespace Sys2Proof.Machine

/-! ## The recognizer's invariants (R26, R132) -/

theorem recogInv_armExchange (isRead : Bool) (cmdId : Nat) (r : Recognizer) :
    RecogInv (armExchange isRead cmdId r) := by
  constructor <;> simp [armExchange_eq]

/-- The invariants do not speak of the log. -/
theorem recogInv_appendLog {r : Recognizer} (hr : RecogInv r) (depth : Option Nat) (b : Byte) :
    RecogInv (appendLog depth b r) := by
  obtain ⟨h1, h2, h3, h4, h5, h6, h7, h8⟩ := hr
  constructor <;> simpa

/-- A failure is taken in a waiting state, whose record is still clear. -/
theorem recogInv_takeFailure {r : Recognizer} (hr : RecogInv r) (hst : r.st ≠ .complete) {code : ErrCode}
    {byte : Option Byte} (hbyte : byte ≠ none → code = .disconnected ∨ code = .comms ∨ code = .protocol)
    (htimeout : code = .timeout → byte = none) : RecogInv (takeFailure code byte r) := by
  obtain ⟨-, -, -, hpayload, -⟩ := hr.waiting_is_clear hst
  constructor <;> simp [hpayload]
  · exact hbyte
  · exact htimeout

/-- The exchange moves on while it is awaited. -/
theorem recogInv_moveOn {r : Recognizer} (hr : RecogInv r) (hst : r.st ≠ .complete) {st : SeqState}
    (hread : st = .awaitingPayload → r.armedIsRead = true) : RecogInv { r with st := st } := by
  obtain ⟨hsuccess, herr, hbyte, hpayload, hspurious⟩ := hr.waiting_is_clear hst
  constructor <;> simp [hsuccess, herr, hbyte, hpayload, hspurious]
  exact hread

/-- A write succeeds without a payload. -/
theorem recogInv_writeSucceeds {r : Recognizer} (hr : RecogInv r) (hst : r.st ≠ .complete)
    (hwrite : r.armedIsRead = false) : RecogInv { r with st := .complete, success := true } := by
  obtain ⟨-, herr, hbyte, hpayload, -⟩ := hr.waiting_is_clear hst
  constructor <;> simp [herr, hbyte, hpayload, hwrite]

/-- A read succeeds with its payload. -/
theorem recogInv_takePayload {r : Recognizer} (hr : RecogInv r) (hst : r.st = .awaitingPayload) (b : Byte) :
    RecogInv (takePayload b r) := by
  obtain ⟨-, herr, hbyte, -, -⟩ := hr.waiting_is_clear (by simp [hst])
  have hread := hr.payload_awaited_of_read hst
  constructor <;> simp [herr, hbyte, hread]

/-- A spurious byte is flagged in `Complete` only, and the flag is bound to the waiting states alone. -/
theorem recogInv_takeSpurious {r : Recognizer} (hr : RecogInv r) (hst : r.st = .complete) :
    RecogInv (takeSpurious r) :=
  { hr with waiting_is_clear := fun h => absurd hst h }

theorem recogInv_feedByte {r : Recognizer} (hr : RecogInv r) (depth : Option Nat) (b : Byte) :
    RecogInv (feedByte depth b r) := by
  have hlog := recogInv_appendLog hr depth b
  obtain ⟨hst, -, h⟩ | ⟨hst, -, hread, h⟩ | ⟨hst, -, hwrite, h⟩ | ⟨hst, h⟩ | ⟨hst, h⟩ | ⟨hst, h⟩ :=
    feedByte_cases depth b r <;> rw [h]
  · exact recogInv_moveOn hlog (by simp [hst]) (by simp)
  · exact recogInv_moveOn hlog (by simp [hst]) (by simp [hread])
  · exact recogInv_writeSucceeds hlog (by simp [hst]) (by simp [hwrite])
  · have hwaits : r.st ≠ .complete := by obtain ⟨hst, -⟩ | ⟨hst, -⟩ := hst <;> simp [hst]
    exact recogInv_takeFailure hlog (by simpa using hwaits) (fun _ => failCode_cases b) (by simp)
  · exact recogInv_takePayload hlog (by simp [hst]) b
  · exact recogInv_takeSpurious hlog (by simp [hst])

theorem recogInv_hostTimeout {r : Recognizer} (hr : RecogInv r) : RecogInv (hostTimeout r) := by
  obtain ⟨hst, h⟩ | ⟨-, h⟩ := hostTimeout_cases r <;> rw [h]
  · exact recogInv_takeFailure hr hst (absurd rfl) fun _ => rfl
  · exact hr

/-- Settles O44: a received byte, `ARM` and `TIMEOUT` each keep the invariants. -/
theorem stepKeepsTheRecognizerInvariants : Obligations.StepKeepsTheRecognizerInvariants := by
  intro s t hs h
  exact step_keeps (P := fun _ r => RecogInv r) (fun _ b _ hr => recogInv_feedByte hr _ b)
    (fun _ => recogInv_armExchange) (fun _ _ => recogInv_hostTimeout) hs h

/-! ## The bounded log (R21, R22) -/

theorem logBounded_congr {cfg : Config} {r r' : Recognizer} (hlog : r'.log = r.log) (hovf : r'.logOvf = r.logOvf)
    (hr : LogBounded cfg r) : LogBounded cfg r' := by
  unfold LogBounded at *
  rwa [hlog, hovf]

/-- Logging with room stays within the depth, and `log_ovf` is clear then; without room the log is full. -/
theorem logBounded_appendLog {cfg : Config} {r : Recognizer} (hr : LogBounded cfg r) (b : Byte) :
    LogBounded cfg (appendLog cfg.logDepth b r) := by
  obtain ⟨hlen, hovf⟩ := hr
  obtain ⟨hroom, h⟩ | ⟨hfull, h⟩ := appendLog_cases cfg.logDepth b r <;> rw [h]
  · refine ⟨fun depth hd => ?_, fun ho => ?_⟩
    · have : r.log.length < depth := by simpa [logHasRoom, hd] using hroom
      simp
      omega
    · obtain ⟨depth, hd, hlen⟩ := hovf ho
      simp [logHasRoom, hd, hlen] at hroom
  · refine ⟨hlen, fun _ => ?_⟩
    cases hd : cfg.logDepth with
    | none => simp [logHasRoom, hd] at hfull
    | some depth =>
      have : depth ≤ r.log.length := by simpa [logHasRoom, hd] using hfull
      exact ⟨depth, rfl, Nat.le_antisymm (hlen depth hd) this⟩

/-- Settles O46: only a received byte adds to the log, and it adds only where there is room. -/
theorem stepKeepsTheLogBounded : Obligations.StepKeepsTheLogBounded := by
  intro s t hs h
  refine ⟨step_keeps (P := LogBounded) (fun cfg b r hr => ?_) (fun cfg isRead cmdId r => ?_) (fun cfg r hr => ?_) hs h,
    (step_recog h).1⟩
  · exact logBounded_congr (feedByte_log _ b r) (feedByte_logOvf _ b r) (logBounded_appendLog hr b)
  · simp [LogBounded, armExchange_eq]
  · exact logBounded_congr (hostTimeout_log r) (hostTimeout_logOvf r) hr

/-! ## The state before the first `ARM` (R26 item 5) -/

theorem not_neverArmed_feedByte {r : Recognizer} (hr : ¬ NeverArmed r) (depth : Option Nat) (b : Byte) :
    ¬ NeverArmed (feedByte depth b r) := by
  obtain ⟨-, -, h⟩ | ⟨-, -, -, h⟩ | ⟨-, -, -, h⟩ | ⟨-, h⟩ | ⟨-, h⟩ | ⟨-, h⟩ := feedByte_cases depth b r <;> rw [h]
  · simp [NeverArmed]
  · simp [NeverArmed]
  · simp [NeverArmed]
  · simp [NeverArmed]
  · simp [NeverArmed]
  · simpa [NeverArmed] using hr

theorem not_neverArmed_hostTimeout {r : Recognizer} (hr : ¬ NeverArmed r) : ¬ NeverArmed (hostTimeout r) := by
  obtain ⟨-, h⟩ | ⟨-, h⟩ := hostTimeout_cases r <;> rw [h]
  · simp [NeverArmed]
  · exact hr

theorem not_neverArmed_armExchange (isRead : Bool) (cmdId : Nat) (r : Recognizer) :
    ¬ NeverArmed (armExchange isRead cmdId r) := by
  simp [NeverArmed, armExchange_eq]

/-- Settles O49: `Complete` is entered with a success or with a failure code, and `ARM` awaits an acknowledgement. -/
theorem noStepReturnsToNeverArmed : Obligations.NoStepReturnsToNeverArmed := by
  refine ⟨fun s t hs h => ?_, fun s isRead cmdId => ⟨_, rfl, not_neverArmed_armExchange isRead cmdId s.recog⟩⟩
  exact step_keeps (P := fun _ r => ¬ NeverArmed r) (fun _ b _ hr => not_neverArmed_feedByte hr _ b)
    (fun _ => not_neverArmed_armExchange) (fun _ _ => not_neverArmed_hostTimeout) hs h

/-! ## The unbounded log over a run (R21) -/

/-- One instruction other than `ARM` appends to an unbounded log the byte it delivers, if it delivers one. -/
theorem recogAfter_log_unbounded {i : Instr} {cfg : Config} (hd : cfg.logDepth = none) (ha : isArm i = false)
    (r : Recognizer) : (recogAfter i cfg r).log = r.log ++ (receivedByte i).toList := by
  obtain hi | ⟨b, hb⟩ | ⟨isRead, cmdId, rfl⟩ | rfl := instr_kinds i
  · simp [recogAfter_of_encoderSide hi, hi.1]
  · simp [recogAfter_of_receivedByte hb, hb, hd]
  · cases ha
  · simp [receivedByte]

theorem runEvents_log_unbounded (events : List Instr) :
    ∀ s : State, s.cfg.logDepth = none → (∀ i ∈ events, isArm i = false) →
      ∃ t, runEvents events s = .next t ∧ t.recog.log = s.recog.log ++ events.filterMap receivedByte := by
  induction events with
  | nil => intro s _ _; exact ⟨s, rfl, by simp⟩
  | cons i events ih =>
    intro s hd ha
    obtain ⟨hi, hevents⟩ := List.forall_mem_cons.mp ha
    obtain ⟨s', hexec⟩ := exec_total i s
    obtain ⟨hrecog, -, hcfg⟩ := exec_next hexec
    obtain ⟨t, hrun, hlog⟩ := ih s' (hcfg ▸ hd) hevents
    refine ⟨t, by rw [runEvents_cons hexec, hrun], ?_⟩
    rw [hlog, hrecog, recogAfter_log_unbounded hd hi, List.append_assoc]
    cases hb : receivedByte i <;> simp [hb]

/-- Settles O52, by induction on the sequence of events. -/
theorem unboundedLogHoldsEveryByteSinceArm : Obligations.UnboundedLogHoldsEveryByteSinceArm :=
  ⟨runEvents_log_unbounded, fun _ _ _ => ⟨_, rfl, rfl⟩, rfl, fun _ => rfl⟩

end Sys2Proof.Machine
end

