-- ==== Sys2Proof/Proofs/Elements.lean ====
section
/-! PROOFS. Who writes and who reads the elements `armed_is_read` (R14), `cmd_id` (R15), `success` (R16) and `payload` (R20),
and that the encoder and the recognizer keep apart (R10, R12, R53). -/

namespace Sys2Proof.Machine

/-! ## The operands of `ARM` (R14, R15) -/

/-- The recognizer as if it had been armed with other operands. -/
def Recognizer.withArmed (r : Recognizer) (isRead : Bool) (cmdId : Nat) : Recognizer :=
  { r with armedIsRead := isRead, cmdId := cmdId }

/-- An instruction at which the recognizer does not read `armed_is_read`: every one but `ARM`, which writes it, and the success
byte in `AwaitingResult`. -/
def IgnoresReadFlag (i : Instr) (r : Recognizer) : Prop :=
  isArm i = false ∧ (receivedByte i ≠ some tokSuccess ∨ r.st ≠ .awaitingResult)

section
variable (r : Recognizer) (isRead : Bool) (cmdId : Nat)

@[simp] theorem withArmed_st : (r.withArmed isRead cmdId).st = r.st := rfl

@[simp] theorem withArmed_armedIsRead : (r.withArmed isRead cmdId).armedIsRead = isRead := rfl

theorem logHasRoom_withArmed (depth : Option Nat) :
    logHasRoom depth (r.withArmed isRead cmdId) = logHasRoom depth r := rfl

theorem appendLog_withArmed (depth : Option Nat) (b : Byte) :
    appendLog depth b (r.withArmed isRead cmdId) = (appendLog depth b r).withArmed isRead cmdId := by
  unfold appendLog
  rw [logHasRoom_withArmed]
  split <;> rfl

theorem takeAck_withArmed (b : Byte) :
    takeAck b (r.withArmed isRead cmdId) = (takeAck b r).withArmed isRead cmdId := by
  unfold takeAck
  split <;> rfl

theorem hostTimeout_withArmed :
    hostTimeout (r.withArmed isRead cmdId) = (hostTimeout r).withArmed isRead cmdId := by
  cases hst : r.st <;> simp only [hostTimeout, withArmed_st, hst] <;> rfl

end

/-- The result's byte reads the tag nowhere, and the flag at the success byte only. -/
theorem takeResult_withArmed {b : Byte} {r : Recognizer} {isRead : Bool}
    (h : b ≠ tokSuccess ∨ isRead = r.armedIsRead) (cmdId : Nat) :
    takeResult b (r.withArmed isRead cmdId) = (takeResult b r).withArmed isRead cmdId := by
  unfold takeResult
  split
  · next hb =>
    obtain rfl := h.resolve_left (not_not.mpr hb)
    rw [withArmed_armedIsRead]
    split <;> rfl
  · rfl

theorem feedByte_withArmed {b : Byte} {r : Recognizer} {isRead : Bool}
    (h : b ≠ tokSuccess ∨ r.st ≠ .awaitingResult ∨ isRead = r.armedIsRead) (depth : Option Nat) (cmdId : Nat) :
    feedByte depth b (r.withArmed isRead cmdId) = (feedByte depth b r).withArmed isRead cmdId := by
  cases hst : r.st with
  | awaitingAck => simp only [feedByte, withArmed_st, hst, appendLog_withArmed, takeAck_withArmed]
  | awaitingResult =>
    have hflag : b ≠ tokSuccess ∨ isRead = (appendLog depth b r).armedIsRead := by simpa [hst] using h
    simp only [feedByte, withArmed_st, hst, appendLog_withArmed, takeResult_withArmed hflag]
  | awaitingPayload => simp only [feedByte, withArmed_st, hst, appendLog_withArmed]; rfl
  | complete => simp only [feedByte, withArmed_st, hst, appendLog_withArmed]; rfl

/-- The operands of `ARM` are carried along by every move that does not read the flag; the tag is read by none. -/
theorem recogAfter_withArmed {i : Instr} {r : Recognizer} {isRead : Bool} (ha : isArm i = false)
    (h : IgnoresReadFlag i r ∨ isRead = r.armedIsRead) (cfg : Config) (cmdId : Nat) :
    recogAfter i cfg (r.withArmed isRead cmdId) = (recogAfter i cfg r).withArmed isRead cmdId := by
  obtain hi | ⟨b, hb⟩ | ⟨isRead', cmdId', rfl⟩ | rfl := instr_kinds i
  · simp only [recogAfter_of_encoderSide hi]
  · have hfeed : b ≠ tokSuccess ∨ r.st ≠ .awaitingResult ∨ isRead = r.armedIsRead := by
      simpa [IgnoresReadFlag, ha, hb, or_assoc] using h
    simp only [recogAfter_of_receivedByte hb, feedByte_withArmed hfeed]
  · cases ha
  · exact hostTimeout_withArmed r isRead cmdId

/-- Only `ARM` writes its operands. -/
theorem recogAfter_keeps_armed {i : Instr} (ha : isArm i = false) (cfg : Config) (r : Recognizer) :
    (recogAfter i cfg r).armedIsRead = r.armedIsRead ∧ (recogAfter i cfg r).cmdId = r.cmdId := by
  obtain hi | ⟨b, hb⟩ | ⟨isRead, cmdId, rfl⟩ | rfl := instr_kinds i
  · simp [recogAfter_of_encoderSide hi]
  · simp [recogAfter_of_receivedByte hb]
  · cases ha
  · simp

/-- The machine carries the operands of `ARM` along where its recognizer does. -/
theorem exec_withArmed {i : Instr} {s t : State} {isRead : Bool} (h : exec i s = .next t) (ha : isArm i = false)
    (hr : IgnoresReadFlag i s.recog ∨ isRead = s.recog.armedIsRead) (cmdId : Nat) :
    exec i (s.withRecog (s.recog.withArmed isRead cmdId)) = .next (t.withRecog (t.recog.withArmed isRead cmdId)) := by
  rw [exec_withRecog h, recogAfter_withArmed ha hr, (exec_next h).1]

/-- The success byte where the result is expected: the flag chooses the next position (R125). -/
theorem feedByte_success_st {r : Recognizer} (hst : r.st = .awaitingResult) (depth : Option Nat) :
    (feedByte depth tokSuccess r).st = if r.armedIsRead then .awaitingPayload else .complete := by
  cases hr : r.armedIsRead <;> simp [feedByte, takeResult, hst, hr]

/-- Settles O37: the flag is carried along by every move but `ARM` and the success byte in `AwaitingResult`. -/
theorem readFlagIsLatchedAtArm : Obligations.ReadFlagIsLatchedAtArm := by
  intro i s t h
  obtain ⟨hrecog, -, -⟩ := exec_next h
  refine ⟨fun isRead cmdId hi => ?_, fun ha => ?_, fun ha hne flag => ?_, fun b hb hst hsuccess => ?_⟩
  · rw [hrecog, hi]; rfl
  · rw [hrecog, (recogAfter_keeps_armed ha _ _).1]
  · have htag : t.recog.cmdId = s.recog.cmdId := by rw [hrecog, (recogAfter_keeps_armed ha _ _).2]
    have hmove := exec_withArmed (isRead := flag) h ha (.inl ⟨ha, hne⟩) t.recog.cmdId
    have hs : s.withRecog (s.recog.withArmed flag t.recog.cmdId) =
        { s with recog := { s.recog with armedIsRead := flag } } := by rw [htag]; rfl
    rwa [hs] at hmove
  · rw [hrecog, recogAfter_of_receivedByte hb, hsuccess]
    exact feedByte_success_st hst _

/-- Settles O54: `ARM` erases the tag it finds, every other instruction carries it along. -/
theorem commandTagIsNeverRead : Obligations.CommandTagIsNeverRead := by
  intro i s s' hs
  obtain ⟨t, h⟩ := exec_total i s
  obtain ⟨hrecog, -, -⟩ := exec_next h
  have hs' : s.withRecog (s.recog.withArmed s.recog.armedIsRead s'.recog.cmdId) = s' := hs
  cases ha : isArm i with
  | true =>
    obtain ⟨isRead, cmdId, rfl⟩ := isArm_iff.mp ha
    rw [← hs']
    exact ⟨_, _, rfl, rfl, rfl, (nomatch ·), fun _ _ hi => by cases hi; rfl⟩
  | false =>
    obtain ⟨hflag, htag⟩ := recogAfter_keeps_armed ha s.cfg s.recog
    rw [← hrecog] at hflag htag
    have h' := exec_withArmed h ha (.inr rfl) s'.recog.cmdId
    rw [hs', ← hflag] at h'
    exact ⟨t, _, h, h', rfl, fun _ => htag, fun _ _ hi => by cases hi; cases ha⟩

/-! ## Success and payload (R16, R20) -/

/-- The two transitions that set `success`: the success byte of a write and the payload of a read (R125, R127). -/
def Succeeds (b : Byte) (r : Recognizer) : Prop :=
  r.st = .awaitingResult ∧ b = tokSuccess ∧ r.armedIsRead = false ∨ r.st = .awaitingPayload

/-- A byte that is not the one awaited (R126). -/
def FailsAwaited (b : Byte) (r : Recognizer) : Prop :=
  r.st = .awaitingAck ∧ b ≠ tokInproc ∨ r.st = .awaitingResult ∧ b ≠ tokSuccess

theorem feedByte_success_of_succeeds {b : Byte} {r : Recognizer} (h : Succeeds b r) (depth : Option Nat) :
    (feedByte depth b r).success = true := by
  obtain ⟨hst, rfl, hwrite⟩ | hst := h
  · simp [feedByte, takeResult, hst, hwrite]
  · simp [feedByte, hst]

theorem feedByte_success_of_fails {b : Byte} {r : Recognizer} (h : FailsAwaited b r) (depth : Option Nat) :
    (feedByte depth b r).success = false := by
  obtain ⟨hst, hb⟩ | ⟨hst, hb⟩ := h
  · simp [feedByte, takeAck, hst, hb]
  · simp [feedByte, takeResult, hst, hb]

theorem succeeds_of_feedByte_success {b : Byte} {r : Recognizer} {depth : Option Nat} (hr : r.success = false)
    (h : (feedByte depth b r).success = true) : Succeeds b r := by
  obtain ⟨-, -, hf⟩ | ⟨-, -, -, hf⟩ | ⟨hst, hb, hwrite, -⟩ | ⟨-, hf⟩ | ⟨hst, -⟩ | ⟨-, hf⟩ := feedByte_cases depth b r
  · simp [hf, hr] at h
  · simp [hf, hr] at h
  · exact .inl ⟨hst, hb, hwrite⟩
  · simp [hf] at h
  · exact .inr hst
  · simp [hf, hr] at h

/-- `TIMEOUT` never succeeds, and it fails what is awaited. -/
theorem hostTimeout_success (r : Recognizer) (h : r.success = false ∨ r.st ≠ .complete) :
    (hostTimeout r).success = false := by
  obtain ⟨-, ht⟩ | ⟨hst, ht⟩ := hostTimeout_cases r <;> rw [ht]
  · rfl
  · exact h.resolve_right (not_not.mpr hst)

/-- A `success` that was not there before was set by a byte, in one of the two transitions. -/
theorem succeeds_of_recogAfter_success {i : Instr} {cfg : Config} {r : Recognizer} (hr : r.success = false)
    (h : (recogAfter i cfg r).success = true) : ∃ b, receivedByte i = some b ∧ Succeeds b r := by
  obtain hi | ⟨b, hb⟩ | ⟨isRead, cmdId, rfl⟩ | rfl := instr_kinds i
  · rw [recogAfter_of_encoderSide hi, hr] at h
    cases h
  · rw [recogAfter_of_receivedByte hb] at h
    exact ⟨b, hb, succeeds_of_feedByte_success hr h⟩
  · cases h
  · rw [recogAfter_timeout, hostTimeout_success r (.inl hr)] at h
    cases h

/-- Settles O38: the moves of a received byte, of `ARM` and of `TIMEOUT`, read for `success`. -/
theorem successIsSetByTwoTransitionsOnly : Obligations.SuccessIsSetByTwoTransitionsOnly := by
  intro i s t h
  obtain ⟨hrecog, -, -⟩ := exec_next h
  rw [hrecog]
  refine ⟨fun ha => ?_, succeeds_of_recogAfter_success, fun b hb hsucc => ?_, fun b hb hfail => ?_,
    fun hi hst => ?_⟩
  · obtain ⟨isRead, cmdId, rfl⟩ := isArm_iff.mp ha
    rfl
  · rw [recogAfter_of_receivedByte hb]
    exact feedByte_success_of_succeeds hsucc _
  · rw [recogAfter_of_receivedByte hb]
    exact feedByte_success_of_fails hfail _
  · rw [hi]
    exact hostTimeout_success _ (.inr hst)

/-- A byte changes the payload only in `AwaitingPayload`, to itself. -/
theorem feedByte_payload_cases (depth : Option Nat) (b : Byte) (r : Recognizer) :
    (r.st = .awaitingPayload ∧ feedByte depth b r = takePayload b (appendLog depth b r)) ∨
    (feedByte depth b r).payload = r.payload := by
  obtain ⟨-, -, h⟩ | ⟨-, -, -, h⟩ | ⟨-, -, -, h⟩ | ⟨-, h⟩ | h | ⟨-, h⟩ := feedByte_cases depth b r
  · exact .inr (by simp [h])
  · exact .inr (by simp [h])
  · exact .inr (by simp [h])
  · exact .inr (by simp [h])
  · exact .inl h
  · exact .inr (by simp [h])

/-- Settles O41: of all the moves only that of a byte in `AwaitingPayload` brings a payload. -/
theorem payloadIsTheByteFed : Obligations.PayloadIsTheByteFed := by
  intro i s t p h hp hne
  obtain ⟨hrecog, -, -⟩ := exec_next h
  rw [hrecog] at hp ⊢
  obtain hi | ⟨b, hb⟩ | ⟨isRead, cmdId, rfl⟩ | rfl := instr_kinds i
  · rw [recogAfter_of_encoderSide hi] at hp
    exact absurd hp hne
  · rw [recogAfter_of_receivedByte hb] at hp ⊢
    obtain ⟨hst, hf⟩ | hf := feedByte_payload_cases s.cfg.logDepth b s.recog
    · rw [hf] at hp ⊢
      cases hp
      exact ⟨hb, hst, rfl, rfl⟩
    · exact absurd (hf ▸ hp) hne
  · cases hp
  · rw [recogAfter_timeout, hostTimeout_payload] at hp
    exact absurd hp hne

/-! ## The encoder and the recognizer (R10, R12, R53) -/

/-- Settles O42: the encoder's side leaves the recognizer alone, and an event moves the recognizer only. -/
theorem encoderAndRecognizerKeepApart : Obligations.EncoderAndRecognizerKeepApart := by
  intro i s t h
  refine ⟨fun hb ha ht => ?_, fun hevent => ?_⟩
  · rw [(exec_next h).1, recogAfter_of_encoderSide ⟨hb, ha, ht⟩]
  · have hi : ¬ IsEncoderSide i := by
      rintro ⟨hb, ha, ht⟩
      simp [hb, ha, ht] at hevent
    rw [exec_of_event hi] at h
    cases h
    exact ⟨rfl, rfl⟩

theorem encodeCommand_formula (a : Addr) (m v : Byte) (isRead : Bool) :
    encodeCommand .formula a m v isRead = .frame (encodeReg a m v isRead) := rfl

/-- Settles O10: the output of each of these commands is computed from its operands and the address policy. -/
theorem frameDependsOnOperandsAlone : Obligations.FrameDependsOnOperandsAlone := by
  rintro s s' hcfg i (hosd | ⟨a, m, v, rfl | rfl⟩)
  · simp only [List.mem_cons, List.not_mem_nil, or_false] at hosd
    obtain rfl | rfl | rfl | rfl | rfl := hosd <;> exact ⟨_, _, rfl, rfl, rfl, fun _ => ⟨_, rfl⟩⟩
  · refine ⟨_, _, rfl, rfl, ?_, fun hp => ⟨encodeReg a m v false, ?_⟩⟩
    · simp [buildReadWrite, hcfg]
    · simp [buildReadWrite, hp, encodeCommand_formula]
  · refine ⟨_, _, rfl, rfl, ?_, fun hp => ⟨encodeReg a m v true, ?_⟩⟩
    · simp [buildReadWrite, hcfg]
    · simp [buildReadWrite, hp, encodeCommand_formula]

end Sys2Proof.Machine
end

