-- ==== Sys2Proof/Proofs/Ports.lean ====
section
/-! PROOFS. The frames as numbers and as 64-bit words (R61, R90), and the ports that show them and the recognizer (R27, R28). -/

namespace Sys2Proof.Machine

/-- Eight bytes side by side are read back at their places. -/
theorem extractLsb'_bytes (f1 f2 f3 f4 f5 f6 f7 f8 : Byte) :
    let w := f1 ++ f2 ++ f3 ++ f4 ++ f5 ++ f6 ++ f7 ++ f8
    w.extractLsb' 56 8 = f1 ∧ w.extractLsb' 48 8 = f2 ∧ w.extractLsb' 40 8 = f3 ∧ w.extractLsb' 32 8 = f4 ∧
    w.extractLsb' 24 8 = f5 ∧ w.extractLsb' 16 8 = f6 ∧ w.extractLsb' 8 8 = f7 ∧ w.extractLsb' 0 8 = f8 := by
  simp only [BitVec.extractLsb'_append_eq_of_le, BitVec.extractLsb'_append_eq_right,
    BitVec.extractLsb'_eq_self, Nat.reduceLeDiff, Nat.reduceSub, and_self]

/-- The 64-bit view keeps every byte of a frame at its place (R61). -/
theorem extractLsb'_word64 (f : Frame) :
    f.word64.extractLsb' 56 8 = f.soh ∧ f.word64.extractLsb' 48 8 = f.hbr ∧ f.word64.extractLsb' 40 8 = f.msk ∧
    f.word64.extractLsb' 32 8 = f.adh ∧ f.word64.extractLsb' 24 8 = f.adl ∧ f.word64.extractLsb' 16 8 = f.dat ∧
    f.word64.extractLsb' 8 8 = f.csm ∧ f.word64.extractLsb' 0 8 = f.sta :=
  extractLsb'_bytes f.soh f.hbr f.msk f.adh f.adl f.dat f.csm f.sta

/-! ## The bytes of a frame as pieces of the table's pattern -/

theorem strip7_eq_append : ∀ x : Byte, strip7 x = 0#1 ++ x.extractLsb' 0 7 := by decide

theorem strip7_eq_setWidth : ∀ x : Byte, strip7 x = (x.extractLsb' 0 7).setWidth 8 := by decide

theorem ofBool_bit7 : ∀ x : Byte, BitVec.ofBool (bit7 x) = x.extractLsb' 7 1 := by decide

theorem extractLsb'_lowByte {start len : Nat} (h : start + len ≤ 8) (a : Addr) :
    (a.setWidth 8 : Byte).extractLsb' start len = a.extractLsb' start len :=
  BitVec.extractLsb'_setWidth_of_le h

theorem pageByte_eq_setWidth (a : Addr) :
    pageByte a = (BitVec.ofBool (!decide (a < page1Base))).setWidth 8 := by
  unfold pageByte
  by_cases h : a < page1Base
  · rw [if_pos h, decide_eq_true h]; rfl
  · rw [if_neg h, decide_eq_false h]; rfl

theorem setWidth_bit_eq_append : ∀ p : BitVec 1, p.setWidth 8 = 0#7 ++ p := by decide

theorem headerOfBits_eq_append : ∀ b6 b4 b3 b2 b1 : Bool, headerOfBits b6 b4 b3 b2 b1 =
    0#1 ++ BitVec.ofBool b6 ++ 0#1 ++ BitVec.ofBool b4 ++ BitVec.ofBool b3 ++ BitVec.ofBool b2 ++ BitVec.ofBool b1 ++ 1#1 := by
  decide

theorem checksumFull_eq (a : Addr) (v : Byte) : checksumFull a v =
    (BitVec.ofBool (!decide (a < page1Base))).setWidth 8 + (a.extractLsb' 0 7).setWidth 8 +
      (v.extractLsb' 0 7).setWidth 8 := by
  rw [checksumFull, pageByte_eq_setWidth, strip7_eq_setWidth, strip7_eq_setWidth, extractLsb'_lowByte (by decide)]

/-- The pseudocode of R90 and the pattern of the table's rows are the same 64 bits: every byte is its pieces. -/
theorem encodeReg_word64 (isRead : Bool) (a : Addr) (m v : Byte) :
    (encodeReg a m v isRead).word64 = regWord isRead a m v := by
  have hstatus : strip7 statusFull = 0b00101010#8 := by decide
  have hpage : pageByte a = 0#7 ++ BitVec.ofBool (!decide (a < page1Base)) := by
    rw [pageByte_eq_setWidth, setWidth_bit_eq_append]
  have hlow : strip7 (a.setWidth 8) = 0#1 ++ a.extractLsb' 0 7 := by
    rw [strip7_eq_append, extractLsb'_lowByte (by decide)]
  have hbit : BitVec.ofBool (bit7 (a.setWidth 8)) = a.extractLsb' 7 1 := by
    rw [ofBool_bit7, extractLsb'_lowByte (by decide)]
  simp only [Frame.word64, encodeReg, headerByte_eq, headerOfBits_eq_append, hbit, hstatus, hpage, hlow, ofBool_bit7,
    strip7_eq_append, checksumFull_eq, regWord, BitVec.append_assoc, BitVec.cast_eq]
  rfl

/-- The fields of `encodeReg` as numbers: the relocated bits and the checksum of R62 to R69. -/
theorem encodeReg_frameOfOperands (isRead : Bool) (a : Addr) (m v : Byte) :
    FrameOfOperands isRead a m v (encodeReg a m v isRead) := by
  have hpage := pageByte_toNat a
  have hsum := checksumFull_toNat a v
  rw [hpage] at hsum
  refine ⟨rfl, ?_, strip7_toNat m, hpage, ?_, strip7_toNat v, ?_, rfl⟩
  · simp only [encodeReg, headerByte_eq, headerOfBits_toNat, bit7_toNat, hsum, BitVec.toNat_setWidth]
    omega
  · simp only [encodeReg, strip7_toNat, BitVec.toNat_setWidth]
    omega
  · simp only [encodeReg, strip7_toNat, hsum]

/-! ## Reset (R28) -/

/-- Settles O43: after reset nothing has been armed, received, logged or shown. -/
theorem resetMeetsTheInvariants : Obligations.ResetMeetsTheInvariants := by
  refine ⟨?_, ?_, ?_, ?_, rfl, ?_, rfl, rfl, rfl⟩
  · constructor <;> simp [State.reset, Recognizer.reset]
  · simp [FailureExplained, State.reset, Recognizer.reset]
  · simp [LogBounded, State.reset, Recognizer.reset]
  · simp [LogTellsExchange, State.reset, Recognizer.reset]
  · simp [EncOutProducible, State.reset]

/-- Settles O58: reset writes the recognizer as a whole. -/
theorem resetForcesEveryElement : Obligations.ResetForcesEveryElement := ⟨fun _ => rfl, rfl⟩

/-! ## The output ports (R27) -/

theorem optBytePort_none_iff (o : Option Byte) : o = none ↔ optBytePort o = { valid := false, data := 0x00 } := by
  cases o <;> simp [optBytePort]

theorem optBytePort_some_iff (o : Option Byte) (b : Byte) :
    o = some b ↔ optBytePort o = { valid := true, data := b } := by
  cases o <;> simp [optBytePort]

theorem seqCode_eq_iff (st st' : SeqState) : seqCode st = seqCode st' ↔ st = st' := by
  cases st <;> cases st' <;> decide

theorem errNumber_eq_iff (e e' : ErrCode) : errNumber e = errNumber e' ↔ e = e' := by
  cases e <;> cases e' <;> decide

/-- Settles O59: the numberings of `st` and `err` keep their values apart, an optional byte is read back from its port, and a
frame's bytes from its 64-bit view. -/
theorem portsShowTheState : Obligations.PortsShowTheState := by
  refine ⟨fun r => ?_, fun f => ?_, fun _ => ⟨rfl, rfl⟩, rfl, rfl⟩
  · exact ⟨beq_iff_eq, rfl, seqCode_eq_iff r.st .awaitingAck, seqCode_eq_iff r.st .awaitingResult,
      seqCode_eq_iff r.st .awaitingPayload, seqCode_eq_iff r.st .complete, errNumber_eq_iff r.err .none,
      errNumber_eq_iff r.err .disconnected, errNumber_eq_iff r.err .comms, errNumber_eq_iff r.err .protocol,
      errNumber_eq_iff r.err .timeout, optBytePort_none_iff r.errByte, optBytePort_some_iff r.errByte,
      optBytePort_none_iff r.payload, optBytePort_some_iff r.payload, rfl, rfl, rfl, rfl, rfl⟩
  · exact ⟨rfl, f.word64, rfl, extractLsb'_word64 f⟩

/-! ## The operand ports of a register command (R27, R90, R96) -/

/-- `ADDR_POLICY` accepts an address under the formula or in the range. -/
theorem addrAccepted_iff (policy : AddrPolicy) (a : Addr) :
    addrAccepted policy a = true ↔ policy = .formula ∨ (0x0400 ≤ a.toNat ∧ a.toNat ≤ 0x05FF) := by
  cases policy <;> simp [addrAccepted, addrInRange, BitVec.le_def]

/-- A step on the operand ports of a register command shows the encoder's answer to them. -/
theorem step_registerPorts {s : State} {p : EncPorts} {rest : List Stimulus} (hin : s.inputs = .operands p :: rest)
    (hsel : p.osdSel = false) :
    step s = .next ((s.withInputs rest).withEncOut
      (encodeCommand s.cfg.addrPolicy p.address p.mask p.value p.isRead)) := by
  cases hr : p.isRead <;> simp only [step, fetch, hin, decode, decodeOperands, hsel, hr] <;> rfl

/-- Settles O60: the step shows the encoder's answer to the four operands, and the policy decides which answer that is. -/
theorem operandPortsBuildRegisterCommands : Obligations.OperandPortsBuildRegisterCommands := by
  intro s p rest hin hsel
  have hstep := step_registerPorts hin hsel
  refine ⟨fun hok => ?_, fun hpolicy hout => ?_⟩
  · rw [encodeCommand, if_pos ((addrAccepted_iff _ _).mpr hok)] at hstep
    exact ⟨encodeReg_frameOfOperands _ _ _ _, _, hstep, rfl, rfl, congrArg some (encodeReg_word64 _ _ _ _)⟩
  · have hbad : ¬ addrAccepted s.cfg.addrPolicy p.address = true := by
      rw [addrAccepted_iff, hpolicy]
      rintro (h | h)
      · cases h
      · omega
    rw [encodeCommand, if_neg hbad] at hstep
    exact ⟨_, hstep, rfl, rfl⟩

end Sys2Proof.Machine
end

section
/-! PROOFS. The register map as the encoder sends it (R44), and what one step does with the oldest stimulus (R54). -/

namespace Sys2Proof.Machine

/-! ## The register map (R44) -/

/-- The three address columns of a register command's frame are functions of the address alone: the page (R64), the seven
bits that stay in the address byte, and the eighth bit, which moves to the header (R62, R63). -/
theorem encodeReg_addressColumns (a : Addr) (m v : Byte) (isRead : Bool) :
    (encodeReg a m v isRead).adh = pageByte a ∧ (encodeReg a m v isRead).adl = strip7 (a.setWidth 8) ∧
    (encodeReg a m v isRead).hbr.getLsbD 3 = bit7 (a.setWidth 8) := by
  refine ⟨rfl, rfl, ?_⟩
  obtain ⟨-, -, -, -, hbit3, -⟩ :=
    headerOfBits_getLsbD isRead (bit7 m) (bit7 (a.setWidth 8)) (bit7 v) (bit7 (checksumFull a v))
  exact hbit3

/-- The columns printed in the map are those of each row's own address. -/
theorem registerMap_addressColumns : ∀ row ∈ registerMap,
    pageByte row.address = row.adh ∧ strip7 (row.address.setWidth 8) = row.adl ∧
    bit7 (row.address.setWidth 8) = row.hbr3 := by decide

/-- Settles O11: the frame's columns depend on the address alone, and the map's thirteen addresses have the printed ones. -/
theorem registerMapColumnsAreEncoded : Obligations.RegisterMapColumnsAreEncoded := by
  intro row hrow m v isRead
  obtain ⟨hadh, hadl, hhbr3⟩ := encodeReg_addressColumns row.address m v isRead
  obtain ⟨rowAdh, rowAdl, rowHbr3⟩ := registerMap_addressColumns row hrow
  exact ⟨hadh.trans rowAdh, hadl.trans rowAdl, hhbr3.trans rowHbr3⟩

/-! ## The oldest stimulus (R54) -/

/-- The fetch of a stimulus that names an instruction: what is left of its sampling stays in front of the others (R157). -/
theorem fetch_of_decode_ok {s : State} {x : Stimulus} {rest : List Stimulus} {i : Instr} (hin : s.inputs = x :: rest)
    (hdec : decode x = .ok i) : fetch s = .run i (s.withInputs (remaining x ++ rest)) := by
  simp only [fetch, hin, hdec]

/-- Settles O24: a step runs what its fetch gives. -/
theorem stepRunsTheDecodedInstruction : Obligations.StepRunsTheDecodedInstruction := by
  intro s x rest i hin hdec
  have hfetch := fetch_of_decode_ok hin hdec
  calc step s = exec i (s.withInputs (remaining x ++ rest)) := by simp only [step, hfetch]
    _ = exec i { s with inputs := remaining x ++ rest } := rfl

end Sys2Proof.Machine
end

section
/-! PROOFS. The encoder's frames and the decoder that names them (R62 to R70, R74, R96, R97), the text front end (R77, R93), the
received bytes (R72, R73), and the steps that only take a stimulus (R110, U11). -/

namespace Sys2Proof.Machine

/-! ## The fields of a register command's frame (R62 to R69) -/

theorem bit7_lowByte (a : Addr) : bit7 (a.setWidth 8) = a.getLsbD 7 := by
  simp [bit7]

/-- The checksum of a frame's own bytes is the one the encoder computed before splitting it (R68). -/
theorem encodeReg_byteSum (a : Addr) (m v : Byte) (isRead : Bool) :
    (encodeReg a m v isRead).adh + (encodeReg a m v isRead).adl + (encodeReg a m v isRead).dat = checksumFull a v := rfl

/-- All eight bits of the header byte (R62). -/
theorem encodeReg_headerBits (a : Addr) (m v : Byte) (isRead : Bool) :
    let h := (encodeReg a m v isRead).hbr
    h.getLsbD 7 = false ∧ h.getLsbD 6 = isRead ∧ h.getLsbD 5 = false ∧ h.getLsbD 4 = bit7 m ∧
    h.getLsbD 3 = a.getLsbD 7 ∧ h.getLsbD 2 = bit7 v ∧ h.getLsbD 1 = bit7 (checksumFull a v) ∧ h.getLsbD 0 = true := by
  rw [← bit7_lowByte a]
  exact headerOfBits_getLsbD isRead (bit7 m) (bit7 (a.setWidth 8)) (bit7 v) (bit7 (checksumFull a v))

/-- The header byte as the sum of its bits at their places (R62). -/
theorem encodeReg_hbr_toNat (a : Addr) (m v : Byte) (isRead : Bool) :
    (encodeReg a m v isRead).hbr.toNat = 64 * isRead.toNat + 16 * (bit7 m).toNat + 8 * (bit7 (a.setWidth 8)).toNat +
      4 * (bit7 v).toNat + 2 * (bit7 (checksumFull a v)).toNat + 1 :=
  headerOfBits_toNat isRead (bit7 m) (bit7 (a.setWidth 8)) (bit7 v) (bit7 (checksumFull a v))

theorem pageByte_cases (a : Addr) : pageByte a = 0x00 ∨ pageByte a = 0x01 := by
  unfold pageByte
  split
  · exact .inl rfl
  · exact .inr rfl

/-- The address enters the frame by its page and its low byte only (R65). -/
theorem encodeReg_congr {a a' : Addr} (hpage : pageByte a = pageByte a') (hlow : a.setWidth 8 = (a'.setWidth 8 : Byte))
    (m v : Byte) (isRead : Bool) : encodeReg a m v isRead = encodeReg a' m v isRead := by
  simp only [encodeReg, headerByte, checksumFull, hpage, hlow]

/-- Settles O4: the header's bits, and every field's own byte is its operand stripped. -/
theorem msbRelocationOfFiveFields : Obligations.MsbRelocationOfFiveFields := by
  intro a m v isRead
  obtain ⟨-, -, -, hmask, haddr, hvalue, hsum, hstatus⟩ := encodeReg_headerBits a m v isRead
  exact ⟨⟨rfl, hmask⟩, ⟨rfl, haddr⟩, ⟨rfl, hvalue⟩, ⟨rfl, hsum⟩, ⟨rfl, hstatus⟩⟩

/-- Settles O6: the full checksum has seven bits in `CSM` and the eighth in the header, and is computed without the mask and
the read flag. -/
theorem checksumSumsTheStrippedBytes : Obligations.ChecksumSumsTheStrippedBytes := by
  intro a m v isRead f full
  have hfull : (checksumFull a v).toNat = full := by
    have hlt := (checksumFull a v).isLt
    rw [checksumFull_toNat] at hlt ⊢
    exact (Nat.mod_eq_of_lt hlt).symm
  have hbit (m' : Byte) (isRead' : Bool) : (encodeReg a m' v isRead').hbr.getLsbD 1 = bit7 (checksumFull a v) := by
    obtain ⟨-, -, -, -, -, -, hsum, -⟩ := encodeReg_headerBits a m' v isRead'
    exact hsum
  refine ⟨?_, ?_, fun m' isRead' => ⟨rfl, (hbit m' isRead').trans (hbit m isRead).symm⟩⟩
  · rw [← hfull]
    exact strip7_toNat _
  · rw [hbit, bit7_eq_decide, decide_eq_true_iff, hfull]

/-- Settles O8: the header's eight bits one by one, and the number they make. -/
theorem headerByteHasNoOtherValue : Obligations.HeaderByteHasNoOtherValue := by
  intro a m v isRead f
  obtain ⟨h7, h6, h5, h4, h3, h2, h1, h0⟩ := encodeReg_headerBits a m v isRead
  have hnum : f.hbr.toNat = _ := encodeReg_hbr_toNat a m v isRead
  have hmask := (bit7 m).toNat_le
  have haddr := (bit7 (a.setWidth 8)).toNat_le
  have hvalue := (bit7 v).toNat_le
  have hsum := (bit7 (checksumFull a v)).toNat_le
  refine ⟨h7, h6, h5, h4, h3, h2, h1, h0, ?_, ?_, ?_⟩
  · omega
  · rintro rfl
    simp only [Bool.toNat_false] at hnum
    omega
  · rintro rfl
    simp only [Bool.toNat_true] at hnum
    omega

/-- The checksum's bit is moved to position 1 of the header byte and reaches no other. -/
theorem headerOfBits_getLsbD_of_ne_one (b6 b4 b3 b2 b1 b1' : Bool) {n : Nat} (hn : n ≠ 1) :
    (headerOfBits b6 b4 b3 b2 b1).getLsbD n = (headerOfBits b6 b4 b3 b2 b1').getLsbD n := by
  have hbyte : ∀ b6 b4 b3 b2 b1 b1' : Bool, ∀ n < 8, n ≠ 1 →
      (headerOfBits b6 b4 b3 b2 b1).getLsbD n = (headerOfBits b6 b4 b3 b2 b1').getLsbD n := by decide
  by_cases h : n < 8
  · exact hbyte b6 b4 b3 b2 b1 b1' n h hn
  · rw [BitVec.getLsbD_of_ge _ _ (Nat.le_of_not_lt h), BitVec.getLsbD_of_ge _ _ (Nat.le_of_not_lt h)]

/-- Settles O5: the page byte by its comparison; two addresses with one low byte differ in the header by the checksum alone. -/
theorem pageByteIsAnUnsignedComparison : Obligations.PageByteIsAnUnsignedComparison := by
  intro a m v isRead f
  have hpage : f.adh = if a.toNat < 0x0500 then 0x00 else 0x01 := by
    apply BitVec.eq_of_toNat_eq
    rw [apply_ite BitVec.toNat]
    exact pageByte_toNat a
  refine ⟨hpage, ?_, fun _ _ => ?_, fun a' hlow n hn => ?_⟩
  · rw [hpage]
    split <;> rfl
  · rw [hpage]
    split <;> simp [*]
  · have hlow : a'.setWidth 8 = (a.setWidth 8 : Byte) := by
      apply BitVec.eq_of_toNat_eq
      simpa only [BitVec.toNat_setWidth] using hlow
    simp only [f, encodeReg, headerByte_eq, hlow]
    exact headerOfBits_getLsbD_of_ne_one _ _ _ _ _ _ hn

/-! ## The decoder on the encoder's frames (R70, R96, R97) -/

/-- The page comparison and the low byte are all of the address that is kept (R96). -/
theorem aliasAddress_eq (a : Addr) :
    aliasAddress a = (if a < page1Base then 0x0400 else 0x0500) ||| (a.setWidth 8 : Byte).setWidth 16 := by
  have hlow : a &&& 0x00FF = (a.setWidth 8 : Byte).setWidth 16 := by
    apply BitVec.eq_of_toNat_eq
    have hsmall : a.toNat % 2 ^ 8 < 2 ^ 16 := by omega
    rw [BitVec.toNat_and, BitVec.toNat_setWidth, BitVec.toNat_setWidth, Nat.mod_eq_of_lt hsmall]
    exact Nat.and_two_pow_sub_one_eq_mod a.toNat 8
  rw [aliasAddress, hlow]

theorem page_or_lowByte_toNat : ∀ low : Byte,
    ((0x0400 : Addr) ||| low.setWidth 16).toNat = 0x0400 + low.toNat ∧
    ((0x0500 : Addr) ||| low.setWidth 16).toNat = 0x0500 + low.toNat := by decide

theorem aliasAddress_toNat (a : Addr) :
    (aliasAddress a).toNat = (if a.toNat < 0x0500 then 0x0400 else 0x0500) + a.toNat % 256 := by
  obtain ⟨h0, h1⟩ := page_or_lowByte_toNat (a.setWidth 8)
  rw [BitVec.toNat_setWidth] at h0 h1
  have hlt : a < page1Base ↔ a.toNat < 0x0500 := BitVec.lt_def
  rw [aliasAddress_eq]
  by_cases h : a.toNat < 0x0500
  · rw [if_pos (hlt.mpr h), if_pos h, h0]
  · rw [if_neg (mt hlt.mp h), if_neg h, h1]

theorem aliasAddress_of_inRange {a : Addr} (hlo : 0x0400 ≤ a.toNat) (hhi : a.toNat ≤ 0x05FF) : aliasAddress a = a := by
  apply BitVec.eq_of_toNat_eq
  rw [aliasAddress_toNat]
  split <;> omega

/-- An address is put together from its page and its low byte, whose eighth bit the header carries (R97). -/
theorem address_of_page_and_lowByte : ∀ low : Byte,
    (0x0400 : Addr) + ((0x00 : Byte).setWidth 16 <<< 8) + ((BitVec.ofBool (bit7 low)).setWidth 16 <<< 7) +
      (strip7 low).setWidth 16 = 0x0400 ||| low.setWidth 16 ∧
    (0x0400 : Addr) + ((0x01 : Byte).setWidth 16 <<< 8) + ((BitVec.ofBool (bit7 low)).setWidth 16 <<< 7) +
      (strip7 low).setWidth 16 = 0x0500 ||| low.setWidth 16 := by decide

theorem frameAddress_encodeReg (a : Addr) (m v : Byte) (isRead : Bool) :
    frameAddress (encodeReg a m v isRead) = aliasAddress a := by
  obtain ⟨hadh, hadl, hbit3⟩ := encodeReg_addressColumns a m v isRead
  obtain ⟨hpage0, hpage1⟩ := address_of_page_and_lowByte (a.setWidth 8)
  rw [frameAddress, hadh, hadl, hbit3, aliasAddress_eq, pageByte]
  split
  · exact hpage0
  · exact hpage1

/-- What the decoder answers to a frame that passes its tests (R97). -/
theorem decodeReg_of_tests {f : Frame} (hsoh : f.soh = sohByte)
    (hheader : f.hbr.getLsbD 7 = false ∧ f.hbr.getLsbD 5 = false ∧ f.hbr.getLsbD 0 = true)
    (hstripped : bit7 f.msk = false ∧ bit7 f.adl = false ∧ bit7 f.dat = false ∧ bit7 f.csm = false)
    (hpage : f.adh = 0x00 ∨ f.adh = 0x01) (hsta : f.sta = 0x2A)
    (hsum : f.adh + f.adl + f.dat = restore7 f.csm (f.hbr.getLsbD 1)) :
    decodeReg f = .ok { isRead := f.hbr.getLsbD 6, address := frameAddress f,
                        mask := restore7 f.msk (f.hbr.getLsbD 4), value := restore7 f.dat (f.hbr.getLsbD 2) } := by
  obtain ⟨h7, h5, h0⟩ := hheader
  obtain ⟨hmsk, hadl, hdat, hcsm⟩ := hstripped
  have hpage' : ¬ (f.adh ≠ 0x00 ∧ f.adh ≠ 0x01) := fun h => hpage.elim h.1 h.2
  rw [decodeReg, if_neg (not_not.mpr hsoh), h7, h5, h0, hmsk, hadl, hdat, hcsm, if_neg hpage',
    if_neg (not_not.mpr hsta), if_neg (not_not.mpr hsum)]
  rfl

/-- The decoder reads back every operand of a register command, the address up to the range it stands for (R96, R97). -/
theorem decodeReg_encodeReg (a : Addr) (m v : Byte) (isRead : Bool) :
    decodeReg (encodeReg a m v isRead) = .ok { isRead := isRead, address := aliasAddress a, mask := m, value := v } := by
  obtain ⟨h7, h6, h5, h4, -, h2, h1, h0⟩ := encodeReg_headerBits a m v isRead
  have hsum : restore7 (encodeReg a m v isRead).csm (bit7 (checksumFull a v)) = checksumFull a v := restore7_strip7 _
  have hmask : restore7 (encodeReg a m v isRead).msk (bit7 m) = m := restore7_strip7 m
  have hvalue : restore7 (encodeReg a m v isRead).dat (bit7 v) = v := restore7_strip7 v
  rw [decodeReg_of_tests rfl ⟨h7, h5, h0⟩ ⟨bit7_strip7 _, bit7_strip7 _, bit7_strip7 _, bit7_strip7 _⟩ (pageByte_cases a)
    rfl (by rw [h1, hsum, encodeReg_byteSum]), h6, h4, h2, hmask, hvalue, frameAddress_encodeReg]

/-- Settles O9: in the range the decoder reads every operand back, and outside it an address has the page and the low byte of
its stand-in. -/
theorem outOfRangeAddressesAlias : Obligations.OutOfRangeAddressesAlias := by
  refine ⟨fun a m v isRead => ?_, fun a a' m v m' v' isRead isRead' hlo hhi hlo' hhi' h => ?_⟩
  · have hnum := aliasAddress_toNat a
    refine ⟨encodeReg_congr ?_ ?_ m v isRead, ?_, ?_, aliasAddress_of_inRange⟩
    · apply BitVec.eq_of_toNat_eq
      rw [pageByte_toNat, pageByte_toNat, hnum]
      split <;> split <;> omega
    · apply BitVec.eq_of_toNat_eq
      rw [BitVec.toNat_setWidth, BitVec.toNat_setWidth, hnum]
      split <;> omega
    · rw [hnum]
      split <;> omega
    · rw [hnum]
      split <;> omega
  · have hdecode := congrArg decodeReg h
    rw [decodeReg_encodeReg, decodeReg_encodeReg, aliasAddress_of_inRange hlo hhi,
      aliasAddress_of_inRange hlo' hhi'] at hdecode
    cases hdecode
    exact ⟨rfl, rfl, rfl, rfl⟩

theorem osdFrame_word64 (op : OsdOp) : (osdFrame op).word64 = osdWord op := by
  cases op <;> rfl

/-- The 64-bit view loses nothing (R61). -/
theorem frameOfWord64_word64 (f : Frame) : frameOfWord64 f.word64 = f := by
  obtain ⟨h1, h2, h3, h4, h5, h6, h7, h8⟩ := extractLsb'_word64 f
  rw [frameOfWord64, h1, h2, h3, h4, h5, h6, h7, h8]

/-- Settles O21: the register commands' pattern, the five literals, and the view that carries both. -/
theorem tableWordsAreTheEncodersFrames : Obligations.TableWordsAreTheEncodersFrames :=
  ⟨fun a m v isRead => encodeReg_word64 isRead a m v, osdFrame_word64, frameOfWord64_word64⟩

/-- No literal is a register command: its page byte is 2 (R116). -/
theorem decodeReg_osdFrame (op : OsdOp) : decodeReg (osdFrame op) = .error .pageByte := by
  cases op <;> rfl

theorem word64_eq_osdWord_iff (f : Frame) (op : OsdOp) : f.word64 = osdWord op ↔ f = osdFrame op := by
  refine ⟨fun h => ?_, fun h => h ▸ osdFrame_word64 op⟩
  rw [← frameOfWord64_word64 f, h, ← osdFrame_word64, frameOfWord64_word64]

/-- A frame that is a register command is no literal, so the order of the tests in R70 does not matter to it. -/
theorem decodeFrame_of_decodeReg {f : Frame} {c : RegCommand} (h : decodeReg f = .ok c) :
    decodeFrame f = .ok c.instr := by
  have hliteral (op : OsdOp) : ¬ f.word64 = osdWord op := by
    rw [word64_eq_osdWord_iff]
    rintro rfl
    rw [decodeReg_osdFrame] at h
    cases h
  simp only [decodeFrame, hliteral, if_false, h]

theorem decodeFrame_osdFrame (op : OsdOp) : decodeFrame (osdFrame op) = .ok (osdInstr op) := by
  cases op <;> rfl

/-! ## The encoder's output (R74) -/

/-- A frame some command of the encoder builds. -/
def IsEncoderFrame (f : Frame) : Prop :=
  (∃ a m v isRead, f = encodeReg a m v isRead) ∨ ∃ op, f = osdFrame op

theorem producibleFrame_encodeReg (a : Addr) (m v : Byte) (isRead : Bool) :
    ProducibleFrame (encodeReg a m v isRead) := by
  obtain ⟨h7, -, h5, -, -, -, -, h0⟩ := encodeReg_headerBits a m v isRead
  have hpage : pageByte a = 0x00 ∨ pageByte a = 0x01 ∨ pageByte a = 0x02 :=
    (pageByte_cases a).elim .inl fun h => .inr (.inl h)
  exact ⟨rfl, h7, h5, h0, bit7_strip7 _, hpage, bit7_strip7 _, bit7_strip7 _, bit7_strip7 _, rfl,
    _, decodeFrame_of_decodeReg (decodeReg_encodeReg a m v isRead)⟩

theorem producibleFrame_osdFrame (op : OsdOp) : ProducibleFrame (osdFrame op) := by
  have hnamed := decodeFrame_osdFrame op
  cases op <;> exact ⟨rfl, rfl, rfl, rfl, rfl, .inr (.inr rfl), rfl, rfl, rfl, rfl, _, hnamed⟩

theorem producibleFrame_of_isEncoderFrame {f : Frame} (h : IsEncoderFrame f) : ProducibleFrame f := by
  obtain ⟨a, m, v, isRead, rfl⟩ | ⟨op, rfl⟩ := h
  · exact producibleFrame_encodeReg a m v isRead
  · exact producibleFrame_osdFrame op

/-- What may stand at the encoder's output after an event that found `old` there: the same, a frame the encoder built, or a
refusal. -/
def EncOutMove (old new : EncOut) : Prop :=
  new = old ∨ (∃ f, new = .frame f ∧ IsEncoderFrame f) ∨ ∃ why, new = .refused why

theorem encOutMove_osdFrame (old : EncOut) (op : OsdOp) : EncOutMove old (.frame (osdFrame op)) :=
  .inr (.inl ⟨_, rfl, .inr ⟨op, rfl⟩⟩)

theorem encodeCommand_encOutMove (old : EncOut) (policy : AddrPolicy) (a : Addr) (m v : Byte) (isRead : Bool) :
    EncOutMove old (encodeCommand policy a m v isRead) := by
  obtain ⟨-, h⟩ | ⟨-, h⟩ := encodeCommand_cases policy a m v isRead <;> rw [h]
  · exact .inr (.inl ⟨_, rfl, .inl ⟨a, m, v, isRead, rfl⟩⟩)
  · exact .inr (.inr ⟨_, rfl⟩)

/-- A textual mask that spells `m` is `m` presented after the front end's answer (R91, R93). -/
theorem buildReadWrite_of_parseMask_some {text : List Char} {m : Byte} (h : parseMask text = some m) (isRead : Bool)
    (a : Addr) (v : Byte) (s : State) :
    buildReadWrite isRead a (.pattern text) v s = buildReadWrite isRead a (.byte m) v (s.withTextOut (.mask m)) := by
  simp only [buildReadWrite, h, withTextOut_cfg]

/-- A malformed mask stops at the front end (R98). -/
theorem buildReadWrite_of_parseMask_none {text : List Char} (h : parseMask text = none) (isRead : Bool)
    (a : Addr) (v : Byte) (s : State) :
    buildReadWrite isRead a (.pattern text) v s = s.withTextOut .formatError := by
  simp only [buildReadWrite, h]

theorem buildReadWrite_encOutMove (isRead : Bool) (a : Addr) (mask : MaskOperand) (v : Byte) (s : State) :
    EncOutMove s.encOut (buildReadWrite isRead a mask v s).encOut := by
  cases mask with
  | byte m => exact encodeCommand_encOutMove _ _ a m v isRead
  | pattern text =>
    cases h : parseMask text with
    | some m =>
      rw [buildReadWrite_of_parseMask_some h]
      exact encodeCommand_encOutMove _ _ a m v isRead
    | none =>
      rw [buildReadWrite_of_parseMask_none h]
      exact .inl rfl

theorem exec_encOutMove {i : Instr} {s t : State} (h : exec i s = .next t) : EncOutMove s.encOut t.encOut := by
  cases i with
  | wrreg a mask v => cases h; exact buildReadWrite_encOutMove false a mask v s
  | rdreg a mask v => cases h; exact buildReadWrite_encOutMove true a mask v s
  | osdLeft => cases h; exact encOutMove_osdFrame _ .left
  | osdRight => cases h; exact encOutMove_osdFrame _ .right
  | osdUp => cases h; exact encOutMove_osdFrame _ .up
  | osdDown => cases h; exact encOutMove_osdFrame _ .down
  | osdSet => cases h; exact encOutMove_osdFrame _ .set
  | _ => cases h; exact .inl rfl

/-- A dropped stimulus leaves the output or shows a refusal there (R110). -/
theorem reject_encOutMove {e : DecodeError} {s t : State} (h : reject e s = .next t) : EncOutMove s.encOut t.encOut := by
  cases e with
  | osdOperation => cases h; exact .inr (.inr ⟨_, rfl⟩)
  | noStrobe => cases h; exact .inl rfl
  | _ => cases h

/-- The step on a stimulus that names no instruction. -/
theorem step_of_decode_error {s : State} {x : Stimulus} {rest : List Stimulus} {e : DecodeError}
    (hin : s.inputs = x :: rest) (hdec : decode x = .error e) : step s = reject e (s.withInputs rest) := by
  simp only [step, fetch, hin, hdec]

/-- With nothing at the ports a step does nothing. -/
theorem step_of_no_inputs {s : State} (hin : s.inputs = []) : step s = .next s := by
  simp only [step, fetch, hin]

theorem step_encOutMove {s t : State} (h : step s = .next t) : EncOutMove s.encOut t.encOut := by
  cases hin : s.inputs with
  | nil =>
    rw [step_of_no_inputs hin] at h
    cases h
    exact .inl rfl
  | cons x rest =>
    cases hdec : decode x with
    | ok i =>
      rw [stepRunsTheDecodedInstruction s x rest i hin hdec] at h
      exact exec_encOutMove (s := s.withInputs (remaining x ++ rest)) h
    | error e =>
      rw [step_of_decode_error hin hdec] at h
      exact reject_encOutMove (s := s.withInputs rest) h

/-- Settles O48: a step shows what was shown, a frame of the encoder, which the decoder names, or a refusal. -/
theorem stepKeepsTheOutputProducible : Obligations.StepKeepsTheOutputProducible := by
  intro s t hs h f hf
  obtain hsame | ⟨f', hframe, hbuilt⟩ | ⟨why, hrefused⟩ := step_encOutMove h
  · exact hs f (hsame ▸ hf)
  · obtain rfl : f' = f := by simpa [hframe] using hf
    exact producibleFrame_of_isEncoderFrame hbuilt
  · rw [hrefused] at hf
    cases hf

/-! ## The text front end (R77, R93) -/

/-- The character of a binary digit (R77). -/
def digitChar (d : Bool) : Char := if d then '1' else '0'

/-- The digits of a mask, bit 7 first (R47, R93). -/
def maskDigits (m : Byte) : List Bool :=
  [m.getLsbD 7, m.getLsbD 6, m.getLsbD 5, m.getLsbD 4, m.getLsbD 3, m.getLsbD 2, m.getLsbD 1, m.getLsbD 0]

/-- Eight digit characters in one of the two written forms, with or without a space between the nibbles (R77). -/
def spelling (spaced : Bool) (cs : List Char) : List Char :=
  cs.take 4 ++ (if spaced then [' '] else []) ++ cs.drop 4

theorem patternText_eq_spelling (spaced : Bool) (m : Byte) :
    patternText spaced m = spelling spaced ((maskDigits m).map digitChar) := by
  cases spaced <;> rfl

theorem maskOfDigits_maskDigits : ∀ m : Byte, maskOfDigits (maskDigits m) = m := by decide

theorem maskDigits_maskOfDigits_of_eight : ∀ d7 d6 d5 d4 d3 d2 d1 d0 : Bool,
    maskDigits (maskOfDigits [d7, d6, d5, d4, d3, d2, d1, d0]) = [d7, d6, d5, d4, d3, d2, d1, d0] := by decide

theorem eq_eight_of_length {α : Type} : ∀ {l : List α}, l.length = 8 →
    ∃ a b c d e f g h, l = [a, b, c, d, e, f, g, h]
  | [a, b, c, d, e, f, g, h], _ => ⟨a, b, c, d, e, f, g, h, rfl⟩

theorem maskDigits_maskOfDigits {ds : List Bool} (h : ds.length = 8) : maskDigits (maskOfDigits ds) = ds := by
  obtain ⟨d7, d6, d5, d4, d3, d2, d1, d0, rfl⟩ := eq_eight_of_length h
  exact maskDigits_maskOfDigits_of_eight d7 d6 d5 d4 d3 d2 d1 d0

/-- The front end drops the separator and nothing else: the texts it takes are the spellings of eight characters. -/
theorem digitChars_eq_some_iff {text cs : List Char} :
    digitChars text = some cs ↔ cs.length = 8 ∧ ∃ spaced, text = spelling spaced cs := by
  constructor
  · intro h
    unfold digitChars at h
    split at h
    · cases h
      exact ⟨rfl, false, rfl⟩
    · next sep _ _ _ _ =>
      split at h
      · next hsep =>
        cases h
        exact ⟨rfl, true, hsep ▸ rfl⟩
      · cases h
    · cases h
  · rintro ⟨hlen, spaced, rfl⟩
    obtain ⟨a, b, c, d, e, f, g, h, rfl⟩ := eq_eight_of_length hlen
    cases spaced <;> rfl

theorem binaryDigit_eq_some_iff {c : Char} {d : Bool} : binaryDigit c = some d ↔ c = digitChar d := by
  unfold binaryDigit
  by_cases h0 : c = '0'
  · subst h0
    cases d <;> decide
  · by_cases h1 : c = '1'
    · subst h1
      cases d <;> decide
    · cases d <;> simp [digitChar, h0, h1]

theorem binaryDigits_eq_some_iff {cs : List Char} {ds : List Bool} :
    binaryDigits cs = some ds ↔ cs = ds.map digitChar := by
  induction cs generalizing ds with
  | nil => cases ds <;> simp [binaryDigits]
  | cons c cs ih =>
    have hcons : binaryDigits (c :: cs) = some ds ↔
        ∃ d ds', binaryDigit c = some d ∧ binaryDigits cs = some ds' ∧ d :: ds' = ds := by
      rw [binaryDigits]
      cases binaryDigit c <;> cases binaryDigits cs <;> simp
    simp only [hcons, binaryDigit_eq_some_iff, ih]
    cases ds <;> simp

/-- `PARSEMASK` answers the mask of the digits it finds. -/
theorem parseMask_eq_some_iff_digits {text : List Char} {m : Byte} :
    parseMask text = some m ↔
      ∃ cs ds, digitChars text = some cs ∧ binaryDigits cs = some ds ∧ maskOfDigits ds = m := by
  unfold parseMask
  cases digitChars text with
  | none => simp
  | some cs => cases h : binaryDigits cs <;> simp [h]

/-- `PARSEMASK` reads exactly the two spellings of a mask (R77, R93). -/
theorem parseMask_eq_some_iff {text : List Char} {m : Byte} :
    parseMask text = some m ↔ ∃ spaced, text = patternText spaced m := by
  simp only [parseMask_eq_some_iff_digits, digitChars_eq_some_iff, binaryDigits_eq_some_iff, patternText_eq_spelling]
  constructor
  · rintro ⟨_, ds, ⟨hlen, spaced, rfl⟩, rfl, rfl⟩
    rw [List.length_map] at hlen
    exact ⟨spaced, by rw [maskDigits_maskOfDigits hlen]⟩
  · rintro ⟨spaced, rfl⟩
    exact ⟨_, maskDigits m, ⟨rfl, spaced, rfl⟩, rfl, maskOfDigits_maskDigits m⟩

theorem parseMask_eq_none {text : List Char} (h : ∀ m spaced, text ≠ patternText spaced m) : parseMask text = none := by
  cases hm : parseMask text with
  | none => rfl
  | some m =>
    obtain ⟨spaced, htext⟩ := parseMask_eq_some_iff.mp hm
    exact absurd htext (h m spaced)

/-- Settles O3: the front end reads the two spellings of a mask and nothing else, and the encoder then sees the mask. -/
theorem registerCommandsTakeTextMasks : Obligations.RegisterCommandsTakeTextMasks := by
  intro s a text v
  refine ⟨fun m spaced htext => ?_, fun hother => ?_⟩
  · have hmask := parseMask_eq_some_iff.mpr ⟨spaced, htext⟩
    exact ⟨congrArg _ (buildReadWrite_of_parseMask_some hmask false a v s),
      congrArg _ (buildReadWrite_of_parseMask_some hmask true a v s)⟩
  · have hnone := parseMask_eq_none hother
    exact ⟨congrArg _ (buildReadWrite_of_parseMask_none hnone false a v s),
      congrArg _ (buildReadWrite_of_parseMask_none hnone true a v s)⟩

/-- The characters of the grammar of R77. -/
def isDigitChar (c : Char) : Bool := c == '0' || c == '1'

theorem isDigitChar_iff {c : Char} : isDigitChar c = true ↔ ∃ d, binaryDigit c = some d := by
  simp [isDigitChar, binaryDigit_eq_some_iff, digitChar]

theorem all_isDigitChar_iff {cs : List Char} : cs.all isDigitChar = true ↔ ∃ ds, binaryDigits cs = some ds := by
  simp only [binaryDigits_eq_some_iff]
  induction cs with
  | nil => exact ⟨fun _ => ⟨[], rfl⟩, fun _ => rfl⟩
  | cons c cs ih =>
    rw [List.all_cons, Bool.and_eq_true, ih, isDigitChar_iff]
    simp only [binaryDigit_eq_some_iff]
    constructor
    · rintro ⟨⟨d, rfl⟩, ds, rfl⟩
      exact ⟨d :: ds, rfl⟩
    · rintro ⟨ds, hds⟩
      obtain ⟨d, ds', rfl, rfl, rfl⟩ := List.map_eq_cons_iff.mp hds.symm
      exact ⟨⟨d, rfl⟩, ds', rfl⟩

/-- The grammar of R77: eight characters in one of the two written forms, each a digit. -/
theorem patternWellFormed_iff {text : List Char} :
    patternWellFormed text = true ↔ ∃ cs, digitChars text = some cs ∧ cs.all isDigitChar = true := by
  unfold digitChars
  split
  · simp [patternWellFormed, isDigitChar]
  · next sep _ _ _ _ =>
    by_cases hsep : sep = ' ' <;> simp [patternWellFormed, isDigitChar, hsep]
  · simp [patternWellFormed]

/-- Settles O17: the grammar and the conversion ask for the same characters at the same places. -/
theorem wellFormedPatternsAreThoseConverted : Obligations.WellFormedPatternsAreThoseConverted := by
  intro text
  simp only [patternWellFormed_iff, all_isDigitChar_iff, parseMask_eq_some_iff_digits]
  constructor
  · rintro ⟨cs, hcs, ds, hds⟩
    exact ⟨_, cs, ds, hcs, hds, rfl⟩
  · rintro ⟨_, cs, ds, hcs, hds, -⟩
    exact ⟨cs, hcs, ds, hds⟩

/-! ## Received bytes (R72, R73) -/

/-- The instruction a received byte reads as: the row of its token, or `FEED` (R72). -/
theorem decodeRx_cases (b : Byte) :
    (b = tokInproc ∧ decodeRx b = .tInproc) ∨ (b = tokSuccess ∧ decodeRx b = .tSuccess) ∨
    (b = tokCamtimeout ∧ decodeRx b = .tCamtimeout) ∨ (b = tokFail ∧ decodeRx b = .tFail) ∨
    (b = tokDisconn ∧ decodeRx b = .tDisconn) ∨ (b = tokCommsfail ∧ decodeRx b = .tCommsfail) ∨
    (isTokenValue b = false ∧ decodeRx b = .feed b) := by
  have htoken : isTokenValue b = false ↔ b ≠ tokInproc ∧ b ≠ tokSuccess ∧ b ≠ tokCamtimeout ∧ b ≠ tokFail ∧
      b ≠ tokDisconn ∧ b ≠ tokCommsfail := by
    simp [isTokenValue, tokInproc, tokSuccess, tokCamtimeout, tokFail, tokDisconn, tokCommsfail]
  rw [htoken]
  unfold decodeRx
  split_ifs <;> simp [*]

/-- Settles O23: a token's row is defined as its byte, and every other byte is `FEED` itself. -/
theorem tokenRowsAreFeedOfTheirByte : Obligations.TokenRowsAreFeedOfTheirByte := by
  intro b s
  obtain ⟨rfl, h⟩ | ⟨rfl, h⟩ | ⟨rfl, h⟩ | ⟨rfl, h⟩ | ⟨rfl, h⟩ | ⟨rfl, h⟩ | ⟨hb, h⟩ := decodeRx_cases b <;> rw [h]
  · exact ⟨rfl, rfl, rfl, rfl⟩
  · exact ⟨rfl, rfl, rfl, rfl⟩
  · exact ⟨rfl, rfl, rfl, rfl⟩
  · exact ⟨rfl, rfl, rfl, rfl⟩
  · exact ⟨rfl, rfl, rfl, rfl⟩
  · exact ⟨rfl, rfl, rfl, rfl⟩
  · exact ⟨rfl, rfl, by simp [Instr.wellFormed, hb], rfl⟩

/-- The recognizer after an `ARM` and the bytes that follow it. -/
def afterArm (depth : Option Nat) (isRead : Bool) (cmdId : Nat) (r : Recognizer) (bytes : List Byte) : Recognizer :=
  bytes.foldl (fun r b => feedByte depth b r) (armExchange isRead cmdId r)

theorem runEvents_feeds (bytes : List Byte) : ∀ s : State, runEvents (bytes.map .feed) s =
    .next (s.withRecog (bytes.foldl (fun r b => feedByte s.cfg.logDepth b r) s.recog)) := by
  induction bytes with
  | nil => exact fun s => rfl
  | cons b bytes ih =>
    intro s
    rw [List.map_cons, runEvents_cons (t := receiveByte b s) rfl, ih]
    rfl

/-- An exchange is run by its bytes alone. -/
theorem runEvents_arm_feeds (s : State) (isRead : Bool) (cmdId : Nat) (bytes : List Byte) :
    runEvents (.arm isRead cmdId :: bytes.map .feed) s =
      .next (s.withRecog (afterArm s.cfg.logDepth isRead cmdId s.recog bytes)) := by
  rw [runEvents_cons (t := s.withRecog (armExchange isRead cmdId s.recog)) rfl, runEvents_feeds]
  rfl

section
variable (depth : Option Nat) {b : Byte} {r : Recognizer}

/-- The acknowledgement (R124). -/
theorem feedByte_ack (hst : r.st = .awaitingAck) :
    feedByte depth tokInproc r = { appendLog depth tokInproc r with st := .awaitingResult } := by
  simp [feedByte, takeAck, hst]

/-- The result of a read (R125). -/
theorem feedByte_resultOfRead (hst : r.st = .awaitingResult) (hread : r.armedIsRead = true) :
    feedByte depth tokSuccess r = { appendLog depth tokSuccess r with st := .awaitingPayload } := by
  simp [feedByte, takeResult, hst, hread]

/-- The result of a write (R125). -/
theorem feedByte_resultOfWrite (hst : r.st = .awaitingResult) (hwrite : r.armedIsRead = false) :
    feedByte depth tokSuccess r = { appendLog depth tokSuccess r with st := .complete, success := true } := by
  simp [feedByte, takeResult, hst, hwrite]

/-- The payload of a read (R127). -/
theorem feedByte_payload (hst : r.st = .awaitingPayload) :
    feedByte depth b r = takePayload b (appendLog depth b r) := by
  simp [feedByte, hst]

/-- A byte that is not the one awaited (R126). -/
theorem feedByte_of_failsAwaited (h : FailsAwaited b r) :
    feedByte depth b r = takeFailure (failCode b) (some b) (appendLog depth b r) := by
  obtain ⟨hst, hb⟩ | ⟨hst, hb⟩ := h
  · simp [feedByte, takeAck, hst, hb]
  · simp [feedByte, takeResult, hst, hb]

end

/-- An exchange awaited at `st` that has left no outcome yet (R26 item 1). -/
structure Awaits (st : SeqState) (isRead : Bool) (cmdId : Nat) (r : Recognizer) : Prop where
  st_eq : r.st = st
  armedIsRead_eq : r.armedIsRead = isRead
  cmdId_eq : r.cmdId = cmdId
  success_eq : r.success = false
  err_eq : r.err = .none
  errByte_eq : r.errByte = none
  payload_eq : r.payload = none

theorem awaits_armExchange (isRead : Bool) (cmdId : Nat) (r : Recognizer) :
    Awaits .awaitingAck isRead cmdId (armExchange isRead cmdId r) :=
  ⟨rfl, rfl, rfl, rfl, rfl, rfl, rfl⟩

section
variable {st : SeqState} {isRead : Bool} {cmdId : Nat} {b : Byte} {r : Recognizer}

theorem Awaits.logged (hr : Awaits st isRead cmdId r) (depth : Option Nat) (b : Byte) :
    Awaits st isRead cmdId (appendLog depth b r) := by
  obtain ⟨hst, hread, htag, hsuccess, herr, hbyte, hpayload⟩ := hr
  constructor <;> simpa

/-- An awaited exchange that moves on has left no outcome either. -/
theorem Awaits.moveOn (hr : Awaits st isRead cmdId r) (st' : SeqState) :
    Awaits st' isRead cmdId { r with st := st' } :=
  { hr with st_eq := rfl }

theorem Awaits.ack (hr : Awaits .awaitingAck isRead cmdId r) (depth : Option Nat) :
    Awaits .awaitingResult isRead cmdId (feedByte depth tokInproc r) := by
  rw [feedByte_ack depth hr.st_eq]
  exact (hr.logged depth tokInproc).moveOn .awaitingResult

theorem Awaits.resultOfRead (hr : Awaits .awaitingResult true cmdId r) (depth : Option Nat) :
    Awaits .awaitingPayload true cmdId (feedByte depth tokSuccess r) := by
  rw [feedByte_resultOfRead depth hr.st_eq hr.armedIsRead_eq]
  exact (hr.logged depth tokSuccess).moveOn .awaitingPayload

theorem Awaits.outcome_of_resultOfWrite (hr : Awaits .awaitingResult false cmdId r) (depth : Option Nat) :
    outcomeOf (feedByte depth tokSuccess r) =
      { success := true, isComplete := true, err := .none, errByte := none, payload := none, cmdId := cmdId } := by
  rw [feedByte_resultOfWrite depth hr.st_eq hr.armedIsRead_eq]
  simp [outcomeOf, isComplete, hr.err_eq, hr.errByte_eq, hr.payload_eq, hr.cmdId_eq]

theorem Awaits.outcome_of_payload (hr : Awaits .awaitingPayload isRead cmdId r) (depth : Option Nat) (p : Byte) :
    outcomeOf (feedByte depth p r) =
      { success := true, isComplete := true, err := .none, errByte := none, payload := some p, cmdId := cmdId } := by
  rw [feedByte_payload depth hr.st_eq]
  simp [outcomeOf, isComplete, hr.err_eq, hr.errByte_eq, hr.cmdId_eq]

theorem Awaits.outcome_of_failure (hr : Awaits st isRead cmdId r) (hb : FailsAwaited b r) (depth : Option Nat) :
    outcomeOf (feedByte depth b r) =
      { success := false, isComplete := true, err := failCode b, errByte := some b, payload := none,
        cmdId := cmdId } := by
  rw [feedByte_of_failsAwaited depth hb]
  simp [outcomeOf, isComplete, hr.payload_eq, hr.cmdId_eq]

end

/-- Settles O56: the exchange is followed from `ARM` byte by byte. -/
theorem responseShapesEndTheExchange : Obligations.ResponseShapesEndTheExchange := by
  intro s isRead cmdId b p
  have hack (rd : Bool) := awaits_armExchange rd cmdId s.recog
  have hresult (rd : Bool) := (hack rd).ack s.cfg.logDepth
  have hpayload := (hresult true).resultOfRead s.cfg.logDepth
  refine ⟨fun hb => ⟨_, runEvents_arm_feeds s isRead cmdId [b], ?_⟩,
    fun hb => ⟨_, runEvents_arm_feeds s isRead cmdId [tokInproc, b], ?_⟩,
    ⟨_, runEvents_arm_feeds s false cmdId [tokInproc, tokSuccess], ?_⟩,
    ⟨_, runEvents_arm_feeds s true cmdId [tokInproc, tokSuccess], hpayload.st_eq, hpayload.success_eq⟩,
    ⟨_, runEvents_arm_feeds s true cmdId [tokInproc, tokSuccess, p], ?_⟩⟩
  · exact (hack isRead).outcome_of_failure (.inl ⟨(hack isRead).st_eq, hb⟩) _
  · exact (hresult isRead).outcome_of_failure (.inr ⟨(hresult isRead).st_eq, hb⟩) _
  · exact (hresult false).outcome_of_resultOfWrite _
  · exact hpayload.outcome_of_payload _ p

/-! ## Steps without a command (R80, R110, U11) -/

theorem exec_osdInstr (op : OsdOp) (s : State) : exec (osdInstr op) s = .next (buildOsd op s) := by
  cases op <;> rfl

/-- The operand ports with `enc_osd_sel` = 1 read `enc_osd_op` only (R80). -/
theorem step_osdPorts {s : State} {p : EncPorts} {rest : List Stimulus} {op : OsdOp}
    (hin : s.inputs = .operands p :: rest) (hsel : p.osdSel = true) (hop : decodeOsdOp p.osdOp = some op) :
    step s = .next { s with inputs := rest, encOut := .frame (osdFrame op) } := by
  have hdec : decode (.operands p) = .ok (osdInstr op) := by simp only [decode, decodeOperands, hsel, if_true, hop]
  rw [stepRunsTheDecodedInstruction s _ rest _ hin hdec, exec_osdInstr]
  rfl

theorem step_osdPorts_refused {s : State} {p : EncPorts} {rest : List Stimulus}
    (hin : s.inputs = .operands p :: rest) (hsel : p.osdSel = true) (hop : decodeOsdOp p.osdOp = none) :
    step s = .next { s with inputs := rest, encOut := .refused .osdOperation } := by
  have hdec : decode (.operands p) = .error .osdOperation := by
    simp only [decode, decodeOperands, hsel, if_true, hop]
  rw [step_of_decode_error hin hdec]
  rfl

/-- Settles O15: each port value is looked up among the operations. -/
theorem osdOperandPortSelectsOrRefuses : Obligations.OsdOperandPortSelectsOrRefuses := by
  intro s p rest hin hsel
  refine ⟨fun h => ?_, fun h => ?_, fun h => ?_, fun h => ?_, fun h => ?_, fun h => ?_⟩
  · exact step_osdPorts hin hsel (h ▸ rfl)
  · exact step_osdPorts hin hsel (h ▸ rfl)
  · exact step_osdPorts hin hsel (h ▸ rfl)
  · exact step_osdPorts hin hsel (h ▸ rfl)
  · exact step_osdPorts hin hsel (h ▸ rfl)
  · obtain h | h | h := h <;> exact step_osdPorts_refused hin hsel (h ▸ rfl)

/-- The decoder's reasons that speak of bytes, not of the operand ports or the strobes. -/
def IsFrameError (e : DecodeError) : Prop := e ≠ .osdOperation ∧ e ≠ .noStrobe

theorem decodeReg_error {f : Frame} {e : DecodeError} (h : decodeReg f = .error e) : IsFrameError e := by
  unfold decodeReg at h
  split_ifs at h <;> cases h <;> exact ⟨nofun, nofun⟩

theorem decodeFrame_error {f : Frame} {e : DecodeError} (h : decodeFrame f = .error e) : IsFrameError e := by
  unfold decodeFrame at h
  split_ifs at h
  cases hreg : decodeReg f with
  | ok c => rw [hreg] at h; cases h
  | error e' => rw [hreg] at h; cases h; exact decodeReg_error hreg

theorem decodeBytes_error {bytes : List Byte} {e : DecodeError} (h : decodeBytes bytes = .error e) :
    IsFrameError e := by
  unfold decodeBytes at h
  split at h
  · exact decodeFrame_error h
  · cases h
    exact ⟨nofun, nofun⟩

/-- Bytes that name no command are refused by the decoder's reason (U11). -/
theorem reject_of_isFrameError {e : DecodeError} (he : IsFrameError e) (s : State) :
    reject e s = .refused (.notACommand e) := by
  cases e with
  | osdOperation => exact absurd rfl he.1
  | noStrobe => exact absurd rfl he.2
  | _ => rfl

/-- Settles O25: an empty queue, an empty sampling, and bytes the decoder rejects. -/
theorem stepWithoutAnInstruction : Obligations.StepWithoutAnInstruction := by
  refine ⟨fun _ => step_of_no_inputs, fun s p rest hin hrx htimeout harm => ?_, fun s bytes rest hin e he => ?_⟩
  · have hdec : decode (.strobes p) = .error .noStrobe := by
      simp only [decode, decodeStrobes, hrx, htimeout, harm, Bool.false_eq_true, if_false]
    rw [step_of_decode_error hin hdec]
    rfl
  · rw [step_of_decode_error (x := .frame bytes) hin he]
    exact reject_of_isFrameError (decodeBytes_error he) _

/-- Settles O22: thirteen closed evaluations of the decoder. -/
theorem specWordsDecode : Obligations.SpecWordsDecode := by
  unfold Obligations.SpecWordsDecode
  decide

end Sys2Proof.Machine
end

section
/-! PROOFS. The register commands: the frames they build and the addresses they refuse (R90, R96), the checksum over restored
bytes (R94, R95), `PARSEMASK` (R93), and the decoder and the encoder as inverses (R70, R72, R76, R97). -/

namespace Sys2Proof.Machine

/-! ## The decoder of register commands is the encoder's inverse (R97) -/

/-- The tests of `decodeReg`, all passed (R97). -/
structure PassesRegisterTests (f : Frame) : Prop where
  soh : f.soh = sohByte
  header : f.hbr.getLsbD 7 = false ∧ f.hbr.getLsbD 5 = false ∧ f.hbr.getLsbD 0 = true
  stripped : bit7 f.msk = false ∧ bit7 f.adl = false ∧ bit7 f.dat = false ∧ bit7 f.csm = false
  page : f.adh = 0x00 ∨ f.adh = 0x01
  sta : f.sta = 0x2A
  sum : f.adh + f.adl + f.dat = restore7 f.csm (f.hbr.getLsbD 1)

/-- The operands read from a frame's fields (R97). -/
def commandOf (f : Frame) : RegCommand :=
  { isRead := f.hbr.getLsbD 6, address := frameAddress f,
    mask := restore7 f.msk (f.hbr.getLsbD 4), value := restore7 f.dat (f.hbr.getLsbD 2) }

/-- A frame that fails no test was tested for everything: the converse of `decodeReg_of_tests`. -/
theorem passesRegisterTests_of_decodeReg {f : Frame} {c : RegCommand} (h : decodeReg f = .ok c) :
    PassesRegisterTests f := by
  unfold decodeReg at h
  split_ifs at h with hsoh hreserved hstatus hstripped hpage hsta hsum
  simp only [Bool.or_eq_true, not_or, Bool.not_eq_true] at hreserved hstripped
  obtain ⟨h7, h5⟩ := hreserved
  obtain ⟨⟨⟨hmsk, hadl⟩, hdat⟩, hcsm⟩ := hstripped
  exact
    { soh := not_not.mp hsoh
      header := ⟨h7, h5, by simpa using hstatus⟩
      stripped := ⟨hmsk, hadl, hdat, hcsm⟩
      page := by rwa [not_and_or, not_not, not_not] at hpage
      sta := not_not.mp hsta
      sum := not_not.mp hsum }

theorem decodeReg_eq_ok_iff {f : Frame} {c : RegCommand} :
    decodeReg f = .ok c ↔ PassesRegisterTests f ∧ c = commandOf f := by
  have hread (h : PassesRegisterTests f) : decodeReg f = .ok (commandOf f) :=
    decodeReg_of_tests h.soh h.header h.stripped h.page h.sta h.sum
  constructor
  · intro h
    have htests := passesRegisterTests_of_decodeReg h
    exact ⟨htests, by simpa [h] using hread htests⟩
  · rintro ⟨htests, rfl⟩
    exact hread htests

/-- A frame's address as a number: the page, and the low byte put together from its two places (R97). -/
theorem frameAddress_toNat {f : Frame} (hpage : f.adh = 0x00 ∨ f.adh = 0x01) (hadl : bit7 f.adl = false) :
    (frameAddress f).toNat = 0x0400 + 256 * f.adh.toNat + (restore7 f.adl (f.hbr.getLsbD 3)).toNat := by
  obtain ⟨haddr0, haddr1⟩ := address_of_page_and_lowByte (restore7 f.adl (f.hbr.getLsbD 3))
  obtain ⟨hnum0, hnum1⟩ := page_or_lowByte_toNat (restore7 f.adl (f.hbr.getLsbD 3))
  rw [bit7_restore7 _ _ hadl, strip7_restore7 _ _ hadl] at haddr0 haddr1
  obtain h | h := hpage <;> rw [frameAddress, h]
  · exact (congrArg BitVec.toNat haddr0).trans hnum0
  · exact (congrArg BitVec.toNat haddr1).trans hnum1

/-- The address of a frame is in the range, with the frame's page and the frame's low byte (R64, R97). -/
theorem frameAddress_columns {f : Frame} (hpage : f.adh = 0x00 ∨ f.adh = 0x01) (hadl : bit7 f.adl = false) :
    pageByte (frameAddress f) = f.adh ∧ (frameAddress f).setWidth 8 = restore7 f.adl (f.hbr.getLsbD 3) ∧
    0x0400 ≤ (frameAddress f).toNat ∧ (frameAddress f).toNat ≤ 0x05FF := by
  have hnum := frameAddress_toNat hpage hadl
  have hlow := (restore7 f.adl (f.hbr.getLsbD 3)).isLt
  have hadh : f.adh.toNat = 0 ∨ f.adh.toNat = 1 := hpage.imp (congrArg BitVec.toNat) (congrArg BitVec.toNat)
  refine ⟨?_, ?_, by omega, by omega⟩
  · apply BitVec.eq_of_toNat_eq
    rw [pageByte_toNat]
    split <;> omega
  · apply BitVec.eq_of_toNat_eq
    rw [BitVec.toNat_setWidth]
    omega

/-- The encoder builds a frame that passes the tests again from the operands read there (R97). -/
theorem encodeReg_commandOf {f : Frame} (h : PassesRegisterTests f) :
    encodeReg (commandOf f).address (commandOf f).mask (commandOf f).value (commandOf f).isRead = f := by
  obtain ⟨hmsk, hadl, hdat, hcsm⟩ := h.stripped
  obtain ⟨h7, h5, h0⟩ := h.header
  obtain ⟨hpage, hlow, -, -⟩ := frameAddress_columns h.page hadl
  have hsum : checksumFull (frameAddress f) (restore7 f.dat (f.hbr.getLsbD 2)) = restore7 f.csm (f.hbr.getLsbD 1) := by
    rw [checksumFull, hpage, hlow, strip7_restore7 _ _ hadl, strip7_restore7 _ _ hdat, h.sum]
  have hhbr : headerByte (commandOf f).isRead (commandOf f).address (commandOf f).mask (commandOf f).value = f.hbr := by
    simp only [commandOf, headerByte_eq, hlow, hsum, bit7_restore7, hmsk, hadl, hdat, hcsm]
    exact headerOfBits_of_header f.hbr h7 h5 h0
  have hstatus : strip7 statusFull = f.sta := by rw [h.sta]; rfl
  rw [encodeReg, hhbr, hstatus]
  simp only [commandOf, hpage, hlow, hsum, strip7_restore7, hmsk, hadl, hdat, hcsm, ← h.soh]

/-- Settles O20: the decoder reads an in-range command back, and the encoder rebuilds every frame that passes its tests. -/
theorem decodeRegInvertsEncodeReg : Obligations.DecodeRegInvertsEncodeReg := by
  refine ⟨fun a m v isRead hlo hhi => ?_, fun f c h => ?_⟩
  · rw [decodeReg_encodeReg, aliasAddress_of_inRange hlo hhi]
  · obtain ⟨htests, rfl⟩ := decodeReg_eq_ok_iff.mp h
    obtain ⟨-, hadl, -⟩ := htests.stripped
    obtain ⟨-, -, hrange⟩ := frameAddress_columns htests.page hadl
    exact ⟨encodeReg_commandOf htests, hrange⟩

/-! ## The round trips of instructions (R70, R72, R76, R97) -/

theorem addrWellFormed_iff {a : Addr} : addrWellFormed a = true ↔ 0x0400 ≤ a.toNat ∧ a.toNat ≤ 0x05FF := by
  simp [addrWellFormed]

/-- The 64-bit word of a frame is carried as the frame's bytes (R61). -/
theorem frameStimulus_word64 (f : Frame) : frameStimulus f.word64 = .frame f.bytes := by
  rw [frameStimulus, frameOfWord64_word64]

/-- The bytes of a frame are decoded as that frame (R60). -/
theorem decode_frame_bytes (f : Frame) : decode (.frame f.bytes) = decodeFrame f := rfl

/-- A register command is encoded as the frame of R90. -/
theorem encode_regCommand (c : RegCommand) :
    encode c.instr = .frame (encodeReg c.address c.mask c.value c.isRead).bytes := by
  rw [← frameStimulus_word64, encodeReg_word64]
  obtain ⟨isRead, a, m, v⟩ := c
  cases isRead <;> rfl

theorem encode_osdInstr (op : OsdOp) : encode (osdInstr op) = .frame (osdFrame op).bytes := by
  rw [← frameStimulus_word64, osdFrame_word64]
  cases op <;> rfl

theorem wellFormed_regCommand (c : RegCommand) : c.instr.wellFormed = addrWellFormed c.address := by
  obtain ⟨isRead, a, m, v⟩ := c
  cases isRead <;> exact Bool.and_true _

theorem wellFormed_osdInstr (op : OsdOp) : (osdInstr op).wellFormed = true := by
  cases op <;> rfl

/-- A frame names a literal's operation or a register command, and nothing else (R70). -/
theorem decodeFrame_ok_cases {f : Frame} {i : Instr} (h : decodeFrame f = .ok i) :
    (∃ op, f = osdFrame op ∧ i = osdInstr op) ∨ ∃ c, decodeReg f = .ok c ∧ i = c.instr := by
  by_cases hliteral : ∃ op, f = osdFrame op
  · obtain ⟨op, rfl⟩ := hliteral
    rw [decodeFrame_osdFrame] at h
    cases h
    exact .inl ⟨op, rfl, rfl⟩
  · have hnone (op : OsdOp) : ¬ f.word64 = osdWord op := by
      rw [word64_eq_osdWord_iff]
      exact fun hop => hliteral ⟨op, hop⟩
    simp only [decodeFrame, hnone, if_false] at h
    cases hreg : decodeReg f with
    | ok c =>
      rw [hreg] at h
      cases h
      exact .inr ⟨c, rfl, rfl⟩
    | error e =>
      rw [hreg] at h
      cases h

/-- Settles O19: a literal is the encoding of its operation, and a register command's frame is rebuilt by the encoder. -/
theorem encodeOfDecodeIsTheFrame : Obligations.EncodeOfDecodeIsTheFrame := by
  intro f i h
  obtain ⟨op, rfl, rfl⟩ | ⟨c, hreg, rfl⟩ := decodeFrame_ok_cases h
  · exact ⟨encode_osdInstr op, wellFormed_osdInstr op⟩
  · obtain ⟨-, hinverse⟩ := decodeRegInvertsEncodeReg
    obtain ⟨hframe, hrange⟩ := hinverse f c hreg
    exact ⟨by rw [encode_regCommand, hframe], by rw [wellFormed_regCommand, addrWellFormed_iff]; exact hrange⟩

/-- The decoder reads an instruction back from its encoding, and nothing of the stimulus is left. -/
def RoundTrips (i : Instr) : Prop := decode (encode i) = .ok i ∧ remaining (encode i) = []

theorem roundTrips_regCommand {c : RegCommand} (h : c.instr.wellFormed = true) : RoundTrips c.instr := by
  rw [wellFormed_regCommand, addrWellFormed_iff] at h
  obtain ⟨hlo, hhi⟩ := h
  obtain ⟨hinverse, -⟩ := decodeRegInvertsEncodeReg
  have hreg := hinverse c.address c.mask c.value c.isRead hlo hhi
  rw [RoundTrips, encode_regCommand, decode_frame_bytes, decodeFrame_of_decodeReg hreg]
  exact ⟨rfl, rfl⟩

theorem roundTrips_osdInstr (op : OsdOp) : RoundTrips (osdInstr op) := by
  rw [RoundTrips, encode_osdInstr, decode_frame_bytes, decodeFrame_osdFrame]
  exact ⟨rfl, rfl⟩

/-- The instruction a received byte reads as is encoded as that byte alone (R72). -/
theorem roundTrips_decodeRx (b : Byte) : RoundTrips (decodeRx b) := by
  have hencode : encode (decodeRx b) = rxStimulus b := (tokenRowsAreFeedOfTheirByte b State.reset).1
  rw [RoundTrips, hencode]
  exact ⟨rfl, rfl⟩

/-- `FEED` of a byte that is no token is what the byte reads as (R72). -/
theorem decodeRx_of_not_token {b : Byte} (h : isTokenValue b = false) : decodeRx b = .feed b := by
  obtain ⟨rfl, -⟩ | ⟨rfl, -⟩ | ⟨rfl, -⟩ | ⟨rfl, -⟩ | ⟨rfl, -⟩ | ⟨rfl, -⟩ | ⟨-, hfeed⟩ := decodeRx_cases b
  iterate 6 · cases h
  exact hfeed

/-- Settles O18: each instruction on the channel of its row, the frames by the decoder's inverse and the bytes by the reading
of a received byte; a textual mask travels as the call of R76. -/
theorem decodeOfEncodeIsTheInstruction : Obligations.DecodeOfEncodeIsTheInstruction := by
  intro i hi
  cases i with
  | wrreg a mask v =>
    cases mask with
    | byte m => exact roundTrips_regCommand (c := ⟨false, a, m, v⟩) hi
    | pattern text => exact ⟨rfl, rfl⟩
  | rdreg a mask v =>
    cases mask with
    | byte m => exact roundTrips_regCommand (c := ⟨true, a, m, v⟩) hi
    | pattern text => exact ⟨rfl, rfl⟩
  | osdLeft => exact roundTrips_osdInstr .left
  | osdRight => exact roundTrips_osdInstr .right
  | osdUp => exact roundTrips_osdInstr .up
  | osdDown => exact roundTrips_osdInstr .down
  | osdSet => exact roundTrips_osdInstr .set
  | tInproc => exact roundTrips_decodeRx tokInproc
  | tSuccess => exact roundTrips_decodeRx tokSuccess
  | tCamtimeout => exact roundTrips_decodeRx tokCamtimeout
  | tFail => exact roundTrips_decodeRx tokFail
  | tDisconn => exact roundTrips_decodeRx tokDisconn
  | tCommsfail => exact roundTrips_decodeRx tokCommsfail
  | feed b =>
    have hb : isTokenValue b = false := by simpa [Instr.wellFormed] using hi
    exact decodeRx_of_not_token hb ▸ roundTrips_decodeRx b
  | arm isRead cmdId => exact ⟨rfl, rfl⟩
  | timeout => exact ⟨rfl, rfl⟩
  | parsemask text => exact ⟨rfl, rfl⟩

/-! ## The effect of a register command (R90, R96) -/

theorem encodeCommand_of_accepted {policy : AddrPolicy} {a : Addr}
    (h : policy = .formula ∨ (0x0400 ≤ a.toNat ∧ a.toNat ≤ 0x05FF)) (m v : Byte) (isRead : Bool) :
    encodeCommand policy a m v isRead = .frame (encodeReg a m v isRead) := by
  rw [encodeCommand, if_pos ((addrAccepted_iff policy a).mpr h)]

theorem encodeCommand_of_outOfRange {a : Addr} (h : a.toNat < 0x0400 ∨ 0x05FF < a.toNat) (m v : Byte) (isRead : Bool) :
    encodeCommand .refuse a m v isRead = .refused .addressRange := by
  have hbad : ¬ addrAccepted .refuse a = true := by
    rw [addrAccepted_iff]
    rintro (hformula | hrange)
    · cases hformula
    · omega
  rw [encodeCommand, if_neg hbad]

/-- A register command with a byte mask shows the encoder's answer and touches nothing else (R91, R92). -/
theorem exec_regCommand (s : State) (a : Addr) (m v : Byte) :
    exec (.wrreg a (.byte m) v) s = .next (s.withEncOut (encodeCommand s.cfg.addrPolicy a m v false)) ∧
    exec (.rdreg a (.byte m) v) s = .next (s.withEncOut (encodeCommand s.cfg.addrPolicy a m v true)) :=
  ⟨rfl, rfl⟩

/-- Settles O1: the encoder's answer to an accepted address, and the numbers of its bytes. -/
theorem registerCommandsBuildTheirFrame : Obligations.RegisterCommandsBuildTheirFrame := by
  intro s a m v hok
  obtain ⟨hwrite, hread⟩ := exec_regCommand s a m v
  rw [encodeCommand_of_accepted hok] at hwrite hread
  exact ⟨hwrite, hread, encodeReg_frameOfOperands false a m v, encodeReg_frameOfOperands true a m v⟩

/-- Settles O2: the encoder's answer to a refused address. -/
theorem refusingPolicyReportsAddressRange : Obligations.RefusingPolicyReportsAddressRange := by
  intro s a m v hpolicy hout
  obtain ⟨hwrite, hread⟩ := exec_regCommand s a m v
  rw [hpolicy, encodeCommand_of_outOfRange hout] at hwrite hread
  exact ⟨hwrite, hread⟩

/-! ## The checksum over restored bytes (R94, R95) -/

/-- A byte is its low seven bits and its eighth in place. -/
theorem strip7_add_topBit : ∀ x : Byte, strip7 x + headerBit (bit7 x) 7 = x := by decide

/-- Two eighth bits add up modulo two: their carry leaves the byte. -/
theorem topBit_add_topBit : ∀ b b' : Bool, headerBit b 7 + headerBit b' 7 = headerBit (b ^^ b') 7 := by decide

theorem strip7_add_headerBit : ∀ (x : Byte) (b : Bool), strip7 (x + headerBit b 7) = strip7 x := by decide

theorem bit7_add_headerBit : ∀ (x : Byte) (b : Bool), bit7 (x + headerBit b 7) = (bit7 x ^^ b) := by decide

/-- The sum of the unstripped bytes is the checksum with the two relocated bits added at the top (R95). -/
theorem unstrippedSum_eq (a : Addr) (v : Byte) :
    pageByte a + a.setWidth 8 + v = checksumFull a v + headerBit (a.getLsbD 7 ^^ bit7 v) 7 := by
  rw [← topBit_add_topBit, ← bit7_lowByte a]
  calc pageByte a + a.setWidth 8 + v
      = pageByte a + (strip7 (a.setWidth 8) + headerBit (bit7 (a.setWidth 8)) 7) +
          (strip7 v + headerBit (bit7 v) 7) := by rw [strip7_add_topBit, strip7_add_topBit]
    _ = checksumFull a v + (headerBit (bit7 (a.setWidth 8)) 7 + headerBit (bit7 v) 7) := by
        rw [checksumFull]; ac_rfl

/-- Settles O7: restoring the two bytes adds their eighth bits to the checksum, which reaches its own eighth bit only. -/
theorem restoredChecksumDiffersInItsTopBit : Obligations.RestoredChecksumDiffersInItsTopBit := by
  intro a m v isRead f restored
  obtain ⟨-, -, -, -, haddr, hvalue, hsum, -⟩ := encodeReg_headerBits a m v isRead
  have hlow : restore7 f.adl (f.hbr.getLsbD 3) = a.setWidth 8 := by
    rw [haddr, ← bit7_lowByte]
    exact restore7_strip7 _
  have hval : restore7 f.dat (f.hbr.getLsbD 2) = v := by
    rw [hvalue]
    exact restore7_strip7 v
  have hrestored : restored = checksumFull a v + headerBit (a.getLsbD 7 ^^ bit7 v) 7 := by
    rw [← unstrippedSum_eq]
    simp only [restored, hlow, hval]
    rfl
  refine ⟨?_, rfl, ?_, ?_⟩
  · have hnum : f.adh.toNat + f.adl.toNat + f.dat.toNat = (checksumFull a v).toNat := by
      rw [checksumFull_toNat]
      simp only [f, encodeReg, strip7_toNat, BitVec.toNat_setWidth]
      omega
    have hlt := (checksumFull a v).isLt
    omega
  · rw [hrestored]
    exact (strip7_add_headerBit _ _).symm
  · have htop : restored.getLsbD 7 = (bit7 (checksumFull a v) ^^ (a.getLsbD 7 ^^ v.getLsbD 7)) := by
      rw [hrestored]
      exact bit7_add_headerBit _ _
    rw [hsum, htop]
    cases bit7 (checksumFull a v) <;> simp

/-! ## `PARSEMASK` (R93, R98) -/

/-- `PARSEMASK` shows the front end's answer and touches nothing else (R93). -/
theorem exec_parsemask (text : List Char) (s : State) :
    exec (.parsemask text) s = .next (s.withTextOut (textAnswer text)) := rfl

/-- Settles O16: the front end converts the two spellings of a mask and nothing else. -/
theorem parsemaskReadsExactlyThePatterns : Obligations.ParsemaskReadsExactlyThePatterns := by
  intro s text
  rw [exec_parsemask]
  refine ⟨fun m spaced htext => ?_, fun hother => ?_⟩
  · rw [textAnswer, parseMask_eq_some_iff.mpr ⟨spaced, htext⟩]
    rfl
  · rw [textAnswer, parseMask_eq_none hother]
    rfl

end Sys2Proof.Machine
end

section
/-! PROOFS. The on-screen-display commands: their literal frames (R111 to R115), which no register command gives (R116). -/

namespace Sys2Proof.Machine

/-! ## The literals are apart from the register commands (R70, R116) -/

/-- The decoder accepts whatever the encoder builds and rejects a literal, so one frame cannot be both. -/
theorem encodeReg_ne_osdFrame (a : Addr) (m v : Byte) (isRead : Bool) (op : OsdOp) :
    encodeReg a m v isRead ≠ osdFrame op := by
  intro h
  have haccepted := decodeReg_encodeReg a m v isRead
  rw [h, decodeReg_osdFrame] at haccepted
  cases haccepted

/-- Settles O14: no frame is a register command's and a literal, and the page byte of a literal is what the decoder rejects. -/
theorem osdLiteralsAreNoRegisterCommands : Obligations.OsdLiteralsAreNoRegisterCommands :=
  fun op => ⟨fun a m v isRead => encodeReg_ne_osdFrame a m v isRead op, decodeReg_osdFrame op⟩

/-! ## The effect of an on-screen-display command (R110 to R115) -/

/-- An on-screen-display command shows its literal, whose 64-bit value is its table word, and touches nothing else (R61,
R110). -/
theorem exec_osdInstr_shows_literal (op : OsdOp) (s : State) :
    exec (osdInstr op) s = .next { s with encOut := .frame (osdFrame op) } ∧ (osdFrame op).word64 = osdWord op :=
  ⟨exec_osdInstr op s, osdFrame_word64 op⟩

/-- Settles O12: the general effect at `left`. -/
theorem osdLeftGivesItsLiteral : Obligations.OsdLeftGivesItsLiteral :=
  fun s => exec_osdInstr_shows_literal .left s

/-- Settles O13: the general effect at the other four operations. -/
theorem otherOsdCommandsGiveTheirLiterals : Obligations.OtherOsdCommandsGiveTheirLiterals := by
  intro s
  obtain ⟨hright, hrightWord⟩ := exec_osdInstr_shows_literal .right s
  obtain ⟨hup, hupWord⟩ := exec_osdInstr_shows_literal .up s
  obtain ⟨hdown, hdownWord⟩ := exec_osdInstr_shows_literal .down s
  obtain ⟨hset, hsetWord⟩ := exec_osdInstr_shows_literal .set s
  exact ⟨hright, hup, hdown, hset, hrightWord, hupWord, hdownWord, hsetWord⟩

end Sys2Proof.Machine
end

section
/-! PROOFS. The recognizer's events one by one: `ARM` (R121), a received byte in every state (R122 to R128), its logging
(R123), and `TIMEOUT` (R129). -/

namespace Sys2Proof.Machine

/-! ## Logging (R123) -/

theorem logHasRoom_iff {depth : Option Nat} {r : Recognizer} :
    logHasRoom depth r = true ↔ depth = none ∨ ∃ d, depth = some d ∧ r.log.length < d := by
  cases depth <;> simp [logHasRoom]

theorem appendLog_of_room {depth : Option Nat} {r : Recognizer} (h : logHasRoom depth r = true) (b : Byte) :
    appendLog depth b r = { r with log := r.log ++ [b] } := by
  rw [appendLog, if_pos h]

/-- A byte that finds a bounded log full is lost visibly (R22). -/
theorem appendLog_of_full {d : Nat} {r : Recognizer} (h : d ≤ r.log.length) (b : Byte) :
    appendLog (some d) b r = { r with logOvf := true } := by
  have hfull : ¬ logHasRoom (some d) r = true := by simpa [logHasRoom] using h
  rw [appendLog, if_neg hfull]

/-- Logging never takes a byte away. -/
theorem log_prefix_appendLog (depth : Option Nat) (b : Byte) (r : Recognizer) : r.log <+: (appendLog depth b r).log := by
  obtain ⟨-, h⟩ | ⟨-, h⟩ := appendLog_cases depth b r <;> rw [h]
  exact List.prefix_append _ _

/-- Settles O35: a byte is logged whatever else it does, and neither the encoder's side nor `TIMEOUT` logs anything. -/
theorem everyReceivedByteIsLogged : Obligations.EveryReceivedByteIsLogged := by
  intro i s t h
  obtain ⟨hrecog, -, -⟩ := exec_next h
  rw [hrecog]
  refine ⟨fun b hb => ?_, fun hb ha => ?_⟩
  · rw [recogAfter_of_receivedByte hb, feedByte_log, feedByte_logOvf]
    refine ⟨fun hroom => ?_, fun ⟨d, hd, hfull⟩ => ?_⟩
    · rw [appendLog_of_room (logHasRoom_iff.mpr hroom)]
      exact ⟨rfl, rfl⟩
    · rw [hd, appendLog_of_full hfull]
      exact ⟨rfl, rfl⟩
  · by_cases ht : i = .timeout
    · rw [ht, recogAfter_timeout]
      exact ⟨hostTimeout_log _, hostTimeout_logOvf _⟩
    · rw [recogAfter_of_encoderSide ⟨hb, ha, ht⟩]
      exact ⟨rfl, rfl⟩

/-! ## The host's events (R121, R129) -/

/-- Settles O27: `ARM` writes every element. -/
theorem armStartsAFreshExchange : Obligations.ArmStartsAFreshExchange := fun _ _ _ => rfl

theorem hostTimeout_of_complete {r : Recognizer} (hst : r.st = .complete) : hostTimeout r = r := by
  simp [hostTimeout, hst]

/-- While something is awaited `TIMEOUT` is a failure without a byte (D10). -/
theorem hostTimeout_of_waiting {r : Recognizer} (hst : r.st ≠ .complete) :
    hostTimeout r = takeFailure .timeout none r :=
  (hostTimeout_cases r).elim (·.2) fun h => absurd h.1 hst

/-- `TIMEOUT` ends every exchange (R129). -/
theorem hostTimeout_st (r : Recognizer) : (hostTimeout r).st = .complete := by
  obtain ⟨-, h⟩ | ⟨hst, h⟩ := hostTimeout_cases r <;> rw [h]
  · rfl
  · exact hst

theorem exec_timeout (s : State) : exec .timeout s = .next (s.withRecog (hostTimeout s.recog)) := rfl

/-- Settles O34: the two cases of `TIMEOUT`. -/
theorem timeoutFailsAnAwaitedExchange : Obligations.TimeoutFailsAnAwaitedExchange := by
  intro s
  refine ⟨fun hst => ?_, fun hst => ?_⟩ <;> rw [exec_timeout]
  · rw [hostTimeout_of_waiting hst]
    rfl
  · rw [hostTimeout_of_complete hst]
    rfl

/-! ## A received byte (R122 to R128) -/

/-- A byte when nothing is awaited (R128). -/
theorem feedByte_spurious {r : Recognizer} (hst : r.st = .complete) (depth : Option Nat) (b : Byte) :
    feedByte depth b r = takeSpurious (appendLog depth b r) := by
  simp [feedByte, hst]

/-- The failure codes as the spec's table of bytes has them (R122, D6). -/
theorem failCode_eq (b : Byte) :
    failCode b = if b = 0x44 then .disconnected else if b = 0x54 ∨ b = 0x46 ∨ b = 0x43 then .comms else .protocol := by
  unfold failCode classOf tokInproc tokSuccess tokDisconn tokCamtimeout tokFail tokCommsfail
  by_cases hinproc : b = 0x45
  · subst hinproc; rfl
  by_cases hsuccess : b = 0x55
  · subst hsuccess; rfl
  simp only [hinproc, hsuccess, if_false]
  split_ifs <;> rfl

/-- Whatever row delivers a byte, it moves the recognizer and touches nothing else. -/
theorem exec_of_receivedByte {i : Instr} {b : Byte} {s : State} {r : Recognizer} (hb : receivedByte i = some b)
    (hr : feedByte s.cfg.logDepth b s.recog = r) : exec i s = .next { s with recog := r } := by
  have hevent : ¬ IsEncoderSide i := fun hi => by simp [hi.1] at hb
  rw [exec_of_event hevent, recogAfter_of_receivedByte hb, hr]
  rfl

/-- Settles O28: the acknowledgement, or a failure with the byte's code. -/
theorem feedInAwaitingAck : Obligations.FeedInAwaitingAck := by
  intro s b hst
  refine ⟨fun hb => ?_, fun hb => ?_⟩
  · rw [hb]
    exact exec_of_receivedByte rfl (feedByte_ack _ hst)
  · rw [← failCode_eq]
    exact exec_of_receivedByte rfl (feedByte_of_failsAwaited _ (.inl ⟨hst, hb⟩))

/-- Settles O29: the result of a read or of a write, or a failure with the byte's code. -/
theorem feedInAwaitingResult : Obligations.FeedInAwaitingResult := by
  intro s b hst
  refine ⟨fun hb hread => ?_, fun hb hwrite => ?_, fun hb => ?_⟩
  · rw [hb]
    exact exec_of_receivedByte rfl (feedByte_resultOfRead _ hst hread)
  · rw [hb]
    exact exec_of_receivedByte rfl (feedByte_resultOfWrite _ hst hwrite)
  · rw [← failCode_eq]
    exact exec_of_receivedByte rfl (feedByte_of_failsAwaited _ (.inr ⟨hst, hb⟩))

/-- Where the payload is expected and in `Complete` no instruction's byte is looked at (R127, R128). -/
theorem exec_of_anyByte {i : Instr} {b : Byte} (hb : receivedByte i = some b) (s : State) :
    (s.recog.st = .awaitingPayload → exec i s = .next { s with recog :=
      { appendLog s.cfg.logDepth b s.recog with st := .complete, success := true, payload := some b } }) ∧
    (s.recog.st = .complete → exec i s = .next { s with recog :=
      { appendLog s.cfg.logDepth b s.recog with spurious := true } }) :=
  ⟨fun hst => exec_of_receivedByte hb (feedByte_payload _ hst),
    fun hst => exec_of_receivedByte hb (feedByte_spurious hst _ b)⟩

/-- Settles O30: every byte is the payload where one is awaited, and spurious where nothing is. -/
theorem feedInAwaitingPayloadAndComplete : Obligations.FeedInAwaitingPayloadAndComplete :=
  fun s _ => exec_of_anyByte rfl s

/-- Settles O33: a token's row delivers its byte, and neither state asks which byte it is. -/
theorem tokenValuesAreDataOrSpurious : Obligations.TokenValuesAreDataOrSpurious := by
  intro s i b hrow
  have hb : receivedByte i = some b := by
    simp only [List.mem_cons, Prod.mk.injEq, List.not_mem_nil, or_false] at hrow
    obtain ⟨rfl, rfl⟩ | ⟨rfl, rfl⟩ | ⟨rfl, rfl⟩ | ⟨rfl, rfl⟩ | ⟨rfl, rfl⟩ | ⟨rfl, rfl⟩ := hrow <;> rfl
  exact exec_of_anyByte hb s

/-- Settles O31: each progress token in the state that awaits it and in the other. -/
theorem progressTokensMoveOrFail : Obligations.ProgressTokensMoveOrFail := by
  intro s
  refine ⟨fun hst => ?_, fun hst => ?_, fun hst => ?_, fun hst => ?_⟩
  · exact exec_of_receivedByte rfl (feedByte_ack _ hst)
  · exact exec_of_receivedByte rfl (feedByte_of_failsAwaited _ (.inr ⟨hst, by decide⟩))
  · exact exec_of_receivedByte rfl (feedByte_of_failsAwaited _ (.inl ⟨hst, by decide⟩))
  · split
    · next hread => exact exec_of_receivedByte rfl (feedByte_resultOfRead _ hst hread)
    · next hnotRead =>
      have hwrite := Bool.eq_false_of_not_eq_true hnotRead
      exact exec_of_receivedByte rfl (feedByte_resultOfWrite _ hst hwrite)

/-- A byte that is neither progress token fails an exchange that waits for a token, with its code (R126, D7). -/
theorem exec_of_failureByte {i : Instr} {b : Byte} (hb : receivedByte i = some b) (hack : b ≠ tokInproc)
    (hresult : b ≠ tokSuccess) {s : State} (hst : s.recog.st = .awaitingAck ∨ s.recog.st = .awaitingResult) :
    exec i s = .next { s with recog := { appendLog s.cfg.logDepth b s.recog with
      st := .complete, success := false, err := failCode b, errByte := some b } } :=
  exec_of_receivedByte hb (feedByte_of_failsAwaited _ (hst.imp (⟨·, hack⟩) (⟨·, hresult⟩)))

/-- Settles O32: the four failure tokens, whose codes are computed. -/
theorem failureTokensFailTheExchange : Obligations.FailureTokensFailTheExchange := by
  intro s hst
  refine ⟨?_, ?_, ?_, ?_⟩
  · exact exec_of_failureByte rfl (by decide) (by decide) hst
  · exact exec_of_failureByte rfl (by decide) (by decide) hst
  · exact exec_of_failureByte rfl (by decide) (by decide) hst
  · exact exec_of_failureByte rfl (by decide) (by decide) hst

/-! ## Every instruction (R133) -/

/-- Settles O36: `exec` is total, and it leaves the stimuli and the parameters alone. -/
theorem noInstructionFaultsOrIsRefused : Obligations.NoInstructionFaultsOrIsRefused := by
  intro i s
  obtain ⟨t, h⟩ := exec_total i s
  obtain ⟨-, hinputs, hcfg⟩ := exec_next h
  exact ⟨t, h, hinputs, hcfg⟩

end Sys2Proof.Machine
end

section
/-! PROOFS. A run followed on the recognizer alone, and what holds of every run: the outcome that stands (R132, R161), the
number of events to completion (R134), the log that is never read (R123), the history that `ARM` erases (R167). -/

namespace Sys2Proof.Machine

/-! ## A run on the recognizer -/

/-- What a sequence of instructions does to the recognizer. -/
def recogAfterAll (events : List Instr) (cfg : Config) (r : Recognizer) : Recognizer :=
  events.foldl (fun r i => recogAfter i cfg r) r

@[simp] theorem recogAfterAll_nil (cfg : Config) (r : Recognizer) : recogAfterAll [] cfg r = r := rfl

@[simp] theorem recogAfterAll_cons (i : Instr) (events : List Instr) (cfg : Config) (r : Recognizer) :
    recogAfterAll (i :: events) cfg r = recogAfterAll events cfg (recogAfter i cfg r) := rfl

/-- What came before an `ARM` is forgotten (R121). -/
theorem recogAfterAll_append_arm (events : List Instr) (isRead : Bool) (cmdId : Nat) (cfg : Config) (r : Recognizer) :
    recogAfterAll (events ++ [.arm isRead cmdId]) cfg r =
      { st := .awaitingAck, armedIsRead := isRead, cmdId := cmdId, success := false, err := .none, errByte := none,
        payload := none, log := [], logOvf := false, spurious := false } := by
  rw [recogAfterAll, List.foldl_append]
  exact armExchange_eq isRead cmdId (recogAfterAll events cfg r)

/-- Every run answers a next state, whose recognizer its instructions determine (R120, R133). -/
theorem runEvents_recog (events : List Instr) :
    ∀ s : State, ∃ t, runEvents events s = .next t ∧ t.recog = recogAfterAll events s.cfg s.recog := by
  induction events with
  | nil => exact fun s => ⟨s, rfl, rfl⟩
  | cons i events ih =>
    intro s
    obtain ⟨s', hexec⟩ := exec_total i s
    obtain ⟨hrecog, -, hcfg⟩ := exec_next hexec
    obtain ⟨t, hrun, ht⟩ := ih s'
    exact ⟨t, by rw [runEvents_cons hexec, hrun], by rw [ht, hcfg, hrecog, recogAfterAll_cons]⟩

/-- Settles O55: either run ends with the `ARM` that writes every element. -/
theorem armErasesTheHistory : Obligations.ArmErasesTheHistory := by
  intro events events' s s' isRead cmdId
  obtain ⟨t, hrun, ht⟩ := runEvents_recog (events ++ [.arm isRead cmdId]) s
  obtain ⟨t', hrun', ht'⟩ := runEvents_recog (events' ++ [.arm isRead cmdId]) s'
  rw [recogAfterAll_append_arm] at ht ht'
  exact ⟨t, t', hrun, hrun', ht.trans ht'.symm, by rw [ht]⟩

/-! ## A complete exchange (R128, R130, R132) -/

/-- Of all the instructions but `ARM` only a byte touches a complete exchange, and it is spurious. -/
theorem recogAfter_of_complete {i : Instr} {r : Recognizer} (ha : isArm i = false) (hst : r.st = .complete)
    (cfg : Config) :
    recogAfter i cfg r = r ∨ ∃ b, recogAfter i cfg r = takeSpurious (appendLog cfg.logDepth b r) := by
  obtain hi | ⟨b, hb⟩ | ⟨isRead, cmdId, rfl⟩ | rfl := instr_kinds i
  · exact .inl (recogAfter_of_encoderSide hi cfg r)
  · exact .inr ⟨b, by rw [recogAfter_of_receivedByte hb, feedByte_spurious hst]⟩
  · cases ha
  · exact .inl (hostTimeout_of_complete hst)

theorem recogAfter_keeps_outcome {i : Instr} {r : Recognizer} (ha : isArm i = false) (hst : r.st = .complete)
    (cfg : Config) : (recogAfter i cfg r).st = .complete ∧ outcomeOf (recogAfter i cfg r) = outcomeOf r := by
  obtain h | ⟨b, h⟩ := recogAfter_of_complete ha hst cfg <;> rw [h]
  · exact ⟨hst, rfl⟩
  · simp [outcomeOf, isComplete, hst]

/-- A complete exchange stays complete, with its outcome and the read flag it was armed with. -/
theorem recogAfterAll_keeps_outcome {events : List Instr} (cfg : Config) (ha : ∀ i ∈ events, isArm i = false) :
    ∀ r : Recognizer, r.st = .complete → outcomeOf (recogAfterAll events cfg r) = outcomeOf r ∧
      (recogAfterAll events cfg r).armedIsRead = r.armedIsRead := by
  induction events with
  | nil => exact fun _ _ => ⟨rfl, rfl⟩
  | cons i events ih =>
    intro r hst
    obtain ⟨hi, hevents⟩ := List.forall_mem_cons.mp ha
    obtain ⟨hst', hout⟩ := recogAfter_keeps_outcome hi hst cfg
    obtain ⟨hflag, -⟩ := recogAfter_keeps_armed hi cfg r
    obtain ⟨houtAll, hflagAll⟩ := ih hevents _ hst'
    exact ⟨houtAll.trans hout, hflagAll.trans hflag⟩

/-- Settles O50, by induction on the sequence. -/
theorem outcomeStandsUntilTheNextArm : Obligations.OutcomeStandsUntilTheNextArm := by
  intro events s ha hst
  obtain ⟨t, hrun, ht⟩ := runEvents_recog events s
  refine ⟨t, hrun, ?_⟩
  rw [ht]
  exact recogAfterAll_keeps_outcome s.cfg ha s.recog hst

theorem seqCode_le_complete (st : SeqState) : (seqCode st).toNat ≤ (seqCode .complete).toNat := by
  cases st <;> decide

/-- No byte moves `st` back, by its port numbers (R13). -/
theorem seqCode_le_feedByte (depth : Option Nat) (b : Byte) (r : Recognizer) :
    (seqCode r.st).toNat ≤ (seqCode (feedByte depth b r).st).toNat := by
  obtain ⟨hst, -, h⟩ | ⟨hst, -, -, h⟩ | ⟨-, -, -, h⟩ | ⟨-, h⟩ | ⟨-, h⟩ | ⟨hst, h⟩ :=
    feedByte_cases depth b r <;> rw [h]
  · simp [hst, seqCode]
  · simp [hst, seqCode]
  · exact seqCode_le_complete _
  · exact seqCode_le_complete _
  · exact seqCode_le_complete _
  · simp

/-- Settles O39: a byte and `TIMEOUT` move `st` forward or not at all, and the encoder's side moves nothing. -/
theorem sequenceOnlyMovesForwardWithoutArm : Obligations.SequenceOnlyMovesForwardWithoutArm := by
  intro i s t h ha
  obtain ⟨hrecog, -, -⟩ := exec_next h
  rw [hrecog]
  refine ⟨?_, fun hst => (recogAfter_keeps_outcome ha hst s.cfg).1,
    fun hb ht => recogAfter_of_encoderSide ⟨hb, ha, ht⟩ s.cfg s.recog⟩
  obtain hi | ⟨b, hb⟩ | ⟨isRead, cmdId, rfl⟩ | rfl := instr_kinds i
  · rw [recogAfter_of_encoderSide hi]
  · rw [recogAfter_of_receivedByte hb]
    exact seqCode_le_feedByte _ b _
  · cases ha
  · rw [recogAfter_timeout, hostTimeout_st]
    exact seqCode_le_complete _

/-! ## Completion (R134) -/

/-- How many bytes at most an exchange still waits for: 3 for an armed read, 2 for an armed write, 0 in `Complete`. -/
def bytesDue (r : Recognizer) : Nat :=
  match r.st with
  | .awaitingAck => if r.armedIsRead then 3 else 2
  | .awaitingResult => if r.armedIsRead then 2 else 1
  | .awaitingPayload => 1
  | .complete => 0

theorem bytesDue_of_complete {r : Recognizer} (hst : r.st = .complete) : bytesDue r = 0 := by
  simp [bytesDue, hst]

theorem complete_of_bytesDue_eq_zero {r : Recognizer} (h : bytesDue r = 0) : r.st = .complete := by
  cases hst : r.st <;> cases hread : r.armedIsRead <;> simp [bytesDue, hst, hread] at h ⊢

/-- Every byte brings the exchange nearer to its end, by one byte or to the end at once. -/
theorem bytesDue_feedByte (depth : Option Nat) (b : Byte) (r : Recognizer) :
    bytesDue (feedByte depth b r) ≤ bytesDue r - 1 := by
  obtain ⟨hst, -, h⟩ | ⟨hst, -, hread, h⟩ | ⟨-, -, -, h⟩ | ⟨-, h⟩ | ⟨-, h⟩ | ⟨hst, h⟩ :=
    feedByte_cases depth b r <;> rw [h]
  · cases hread : r.armedIsRead <;> simp [bytesDue, hst, hread]
  · simp [bytesDue, hst, hread]
  · simp [bytesDue]
  · simp [bytesDue]
  · simp [bytesDue]
  · simp [bytesDue, hst]

/-- An exchange is complete after the bytes it waits for or one `TIMEOUT`, by induction on the events. -/
theorem recogAfterAll_completes {events : List Instr} (cfg : Config) (ha : ∀ i ∈ events, isArm i = false) :
    ∀ r : Recognizer, bytesDue r ≤ (events.filterMap receivedByte).length ∨ Instr.timeout ∈ events →
      (recogAfterAll events cfg r).st = .complete := by
  induction events with
  | nil =>
    intro r h
    exact complete_of_bytesDue_eq_zero (by simpa using h)
  | cons i events ih =>
    intro r h
    obtain ⟨hi, hevents⟩ := List.forall_mem_cons.mp ha
    rw [recogAfterAll_cons]
    apply ih hevents
    obtain henc | ⟨b, hb⟩ | ⟨isRead, cmdId, rfl⟩ | rfl := instr_kinds i
    · have ⟨hb, _, ht⟩ := henc
      rw [recogAfter_of_encoderSide henc]
      simpa [hb, Ne.symm ht] using h
    · have ht : Instr.timeout ≠ i := by rintro rfl; cases hb
      have hdue := bytesDue_feedByte cfg.logDepth b r
      rw [recogAfter_of_receivedByte hb]
      simp only [List.filterMap_cons_some hb, List.length_cons, List.mem_cons, ht, false_or] at h
      exact h.imp_left fun hle => by omega
    · cases hi
    · exact .inl (by simp [bytesDue_of_complete (hostTimeout_st r)])

/-- Settles O51: after `ARM` at most 3 bytes are due for a read and 2 for a write. -/
theorem armedExchangeCompletes : Obligations.ArmedExchangeCompletes := by
  intro events s isRead cmdId ha h
  obtain ⟨t, hrun, ht⟩ := runEvents_recog (.arm isRead cmdId :: events) s
  refine ⟨t, hrun, ?_⟩
  rw [ht, recogAfterAll_cons]
  exact recogAfterAll_completes s.cfg ha _ h

/-! ## The log is never read (R123, D12) -/

theorem sameButLog_iff {r r' : Recognizer} :
    SameButLog r r' ↔ ∃ log logOvf, r' = { r with log := log, logOvf := logOvf } := by
  constructor
  · exact fun h => ⟨r'.log, r'.logOvf, h.symm⟩
  · rintro ⟨log, logOvf, rfl⟩
    rfl

section
variable {r r' : Recognizer}

theorem SameButLog.st_eq (h : SameButLog r r') : r.st = r'.st := by
  obtain ⟨log, logOvf, rfl⟩ := sameButLog_iff.mp h
  rfl

/-- Logging, at whatever depth, changes the log only. -/
theorem SameButLog.appendLog (h : SameButLog r r') (depth depth' : Option Nat) (b : Byte) :
    SameButLog (appendLog depth b r) (appendLog depth' b r') := by
  obtain ⟨log, logOvf, rfl⟩ := sameButLog_iff.mp h
  obtain ⟨-, hl⟩ | ⟨-, hl⟩ := appendLog_cases depth b r <;>
    obtain ⟨-, hl'⟩ | ⟨-, hl'⟩ := appendLog_cases depth' b { r with log := log, logOvf := logOvf } <;>
    rw [hl, hl'] <;> rfl

theorem SameButLog.takeAck (h : SameButLog r r') (b : Byte) : SameButLog (takeAck b r) (takeAck b r') := by
  obtain ⟨log, logOvf, rfl⟩ := sameButLog_iff.mp h
  unfold Machine.takeAck
  split <;> rfl

theorem SameButLog.takeResult (h : SameButLog r r') (b : Byte) :
    SameButLog (takeResult b r) (takeResult b r') := by
  obtain ⟨log, logOvf, rfl⟩ := sameButLog_iff.mp h
  simp only [Machine.takeResult]
  split_ifs <;> rfl

theorem SameButLog.takePayload (h : SameButLog r r') (b : Byte) :
    SameButLog (takePayload b r) (takePayload b r') := by
  obtain ⟨log, logOvf, rfl⟩ := sameButLog_iff.mp h
  rfl

theorem SameButLog.takeSpurious (h : SameButLog r r') : SameButLog (takeSpurious r) (takeSpurious r') := by
  obtain ⟨log, logOvf, rfl⟩ := sameButLog_iff.mp h
  rfl

theorem SameButLog.feedByte (h : SameButLog r r') (depth depth' : Option Nat) (b : Byte) :
    SameButLog (feedByte depth b r) (feedByte depth' b r') := by
  have hlogged := h.appendLog depth depth' b
  unfold Machine.feedByte
  rw [h.st_eq]
  cases r'.st with
  | awaitingAck => exact hlogged.takeAck b
  | awaitingResult => exact hlogged.takeResult b
  | awaitingPayload => exact hlogged.takePayload b
  | complete => exact hlogged.takeSpurious

theorem SameButLog.takeFailure (h : SameButLog r r') (code : ErrCode) (byte : Option Byte) :
    SameButLog (takeFailure code byte r) (takeFailure code byte r') := by
  obtain ⟨log, logOvf, rfl⟩ := sameButLog_iff.mp h
  rfl

theorem SameButLog.hostTimeout (h : SameButLog r r') : SameButLog (hostTimeout r) (hostTimeout r') := by
  unfold Machine.hostTimeout
  rw [h.st_eq]
  cases r'.st with
  | awaitingAck => exact h.takeFailure .timeout none
  | awaitingResult => exact h.takeFailure .timeout none
  | awaitingPayload => exact h.takeFailure .timeout none
  | complete => exact h

theorem SameButLog.recogAfter (h : SameButLog r r') (i : Instr) (cfg cfg' : Config) :
    SameButLog (recogAfter i cfg r) (recogAfter i cfg' r') := by
  obtain hi | ⟨b, hb⟩ | ⟨isRead, cmdId, rfl⟩ | rfl := instr_kinds i
  · simpa only [recogAfter_of_encoderSide hi] using h
  · simpa only [recogAfter_of_receivedByte hb] using h.feedByte cfg.logDepth cfg'.logDepth b
  · rfl
  · exact h.hostTimeout

theorem SameButLog.recogAfterAll (h : SameButLog r r') (events : List Instr) (cfg cfg' : Config) :
    SameButLog (recogAfterAll events cfg r) (recogAfterAll events cfg' r') := by
  induction events generalizing r r' with
  | nil => exact h
  | cons i events ih => exact ih (h.recogAfter i cfg cfg')

end

/-- Settles O53: every instruction keeps two recognizers alike but for their logs, so every run does. -/
theorem logDepthNeverChangesTheExchange : Obligations.LogDepthNeverChangesTheExchange := by
  intro events s s' h
  obtain ⟨t, hrun, ht⟩ := runEvents_recog events s
  obtain ⟨t', hrun', ht'⟩ := runEvents_recog events s'
  refine ⟨t, t', hrun, hrun', ?_⟩
  rw [ht, ht']
  exact h.recogAfterAll events s.cfg s'.cfg

end Sys2Proof.Machine
end

section
/-! PROOFS. The log tells how far the exchange has come (R123 to R127, R159), kept by every step. -/

namespace Sys2Proof.Machine

/-- A log of at least 3 bytes takes the third byte of an exchange (R5, D12). -/
theorem logHasRoom_of_wf {cfg : Config} {r : Recognizer} (hwf : cfg.wf = true) (hlen : r.log.length < 3) :
    logHasRoom cfg.logDepth r = true := by
  rw [logHasRoom_iff]
  cases hd : cfg.logDepth with
  | none => exact .inl rfl
  | some depth =>
    have hdepth : 3 ≤ depth := by simpa [Config.wf, hd] using hwf
    exact .inr ⟨depth, rfl, by omega⟩

/-- An awaited exchange has logged at most the two tokens before the payload. -/
theorem LogTellsExchange.length_lt_three {r : Recognizer} (hr : LogTellsExchange r) (hst : r.st ≠ .complete) :
    r.log.length < 3 := by
  obtain ⟨-, hack, hresult, hpayload, -, -⟩ := hr
  cases h : r.st with
  | awaitingAck => simp [hack h]
  | awaitingResult => simp [hresult h]
  | awaitingPayload => simp [hpayload h]
  | complete => exact absurd h hst

/-- In `Complete` the log speaks of what the exchange brought only. -/
theorem logTellsExchange_of_complete {r : Recognizer} (hst : r.st = .complete)
    (hsuccess : r.success = true → [tokInproc, tokSuccess] <+: r.log)
    (hpayload : ∀ p, r.payload = some p → [tokInproc, tokSuccess, p] <+: r.log) : LogTellsExchange r := by
  simp only [LogTellsExchange, hst]
  exact ⟨nofun, nofun, nofun, nofun, hsuccess, hpayload⟩

theorem logTellsExchange_armExchange (isRead : Bool) (cmdId : Nat) (r : Recognizer) :
    LogTellsExchange (armExchange isRead cmdId r) := by
  simp [LogTellsExchange, armExchange_eq]

/-- A failure of an awaited exchange brings neither success nor payload. -/
theorem logTellsExchange_takeFailure {r : Recognizer} (hpayload : r.payload = none) (code : ErrCode)
    (byte : Option Byte) : LogTellsExchange (takeFailure code byte r) :=
  logTellsExchange_of_complete rfl nofun (by simp [hpayload])

/-- A spurious byte is logged after what the log tells already. -/
theorem logTellsExchange_spurious {r : Recognizer} (hr : LogTellsExchange r) (hst : r.st = .complete)
    (depth : Option Nat) (b : Byte) : LogTellsExchange (takeSpurious (appendLog depth b r)) := by
  obtain ⟨-, -, -, -, hsuccess, hpayload⟩ := hr
  have hprefix := log_prefix_appendLog depth b r
  refine logTellsExchange_of_complete (by simp [hst]) (fun h => ?_) (fun p h => ?_)
  · exact (hsuccess (by simpa using h)).trans hprefix
  · exact (hpayload p (by simpa using h)).trans hprefix

/-- A byte of an awaited exchange is logged behind the tokens that brought the recognizer where it is. -/
theorem logTellsExchange_feedByte {cfg : Config} {r : Recognizer} (hwf : cfg.wf = true) (hinv : RecogInv r)
    (hr : LogTellsExchange r) (b : Byte) : LogTellsExchange (feedByte cfg.logDepth b r) := by
  by_cases hwaits : r.st = .complete
  · rw [feedByte_spurious hwaits]
    exact logTellsExchange_spurious hr hwaits _ b
  have hlogged := appendLog_of_room (logHasRoom_of_wf hwf (hr.length_lt_three hwaits)) b
  obtain ⟨hsuccess, -, -, hpayload, -⟩ := hinv.waiting_is_clear hwaits
  obtain ⟨hovf, hack, hresult, hpayloadLog, -, -⟩ := hr
  obtain ⟨hst, rfl, h⟩ | ⟨hst, rfl, -, h⟩ | ⟨hst, rfl, -, h⟩ | ⟨-, h⟩ | ⟨hst, h⟩ | ⟨hst, -⟩ :=
    feedByte_cases cfg.logDepth b r
  · rw [h, hlogged]
    simp [LogTellsExchange, hovf hwaits, hack hst, hsuccess, hpayload]
  · rw [h, hlogged]
    simp [LogTellsExchange, hovf hwaits, hresult hst, hsuccess, hpayload]
  · rw [h, hlogged]
    exact logTellsExchange_of_complete rfl (by simp [hresult hst]) (by simp [hpayload])
  · rw [h]
    exact logTellsExchange_takeFailure (by simp [hpayload]) _ _
  · rw [h, hlogged]
    exact logTellsExchange_of_complete rfl (by simp [hpayloadLog hst]) (by simp [hpayloadLog hst])
  · exact absurd hst hwaits

theorem logTellsExchange_hostTimeout {r : Recognizer} (hinv : RecogInv r) (hr : LogTellsExchange r) :
    LogTellsExchange (hostTimeout r) := by
  obtain ⟨hst, h⟩ | ⟨-, h⟩ := hostTimeout_cases r <;> rw [h]
  · obtain ⟨-, -, -, hpayload, -⟩ := hinv.waiting_is_clear hst
    exact logTellsExchange_takeFailure hpayload _ _
  · exact hr

/-- The two invariants that go through the moves together, at a depth that R5 allows. -/
def ExchangeInv (cfg : Config) (r : Recognizer) : Prop := cfg.wf = true → RecogInv r ∧ LogTellsExchange r

theorem step_keeps_exchangeInv {s t : State} (hs : ExchangeInv s.cfg s.recog) (h : step s = .next t) :
    ExchangeInv t.cfg t.recog := by
  refine step_keeps (fun cfg b r hr hwf => ?_) (fun cfg isRead cmdId r _ => ?_) (fun cfg r hr hwf => ?_) hs h
  · obtain ⟨hinv, hlog⟩ := hr hwf
    exact ⟨recogInv_feedByte hinv _ b, logTellsExchange_feedByte hwf hinv hlog b⟩
  · exact ⟨recogInv_armExchange isRead cmdId r, logTellsExchange_armExchange isRead cmdId r⟩
  · obtain ⟨hinv, hlog⟩ := hr hwf
    exact ⟨recogInv_hostTimeout hinv, logTellsExchange_hostTimeout hinv hlog⟩

/-- Settles O47: the log is told of together with the invariants of R26, and no step changes the depth. -/
theorem stepKeepsTheLogTellingTheExchange : Obligations.StepKeepsTheLogTellingTheExchange := by
  intro s t hwf hinv hs h
  have hwf' : t.cfg.wf = true := by rwa [(step_recog h).1]
  exact (step_keeps_exchangeInv (fun _ => ⟨hinv, hs⟩) h hwf').2

end Sys2Proof.Machine
end

section
/-! PROOFS. The failure record: which events write it and with which code (R126, R129, R152), kept explained by every step;
and the strobes of one sampling, one after the other (R157). -/

namespace Sys2Proof.Machine

/-! ## The failure record (R126, R129, R152) -/

/-- A byte that does not fail the exchange leaves the failure record alone (R124, R125, R127, R128). -/
theorem feedByte_keeps_failure {b : Byte} {r : Recognizer} (h : ¬ FailsAwaited b r) (depth : Option Nat) :
    (feedByte depth b r).err = r.err ∧ (feedByte depth b r).errByte = r.errByte := by
  obtain ⟨-, -, hf⟩ | ⟨-, -, -, hf⟩ | ⟨-, -, -, hf⟩ | ⟨hfail, -⟩ | ⟨-, hf⟩ | ⟨-, hf⟩ := feedByte_cases depth b r
  · simp [hf]
  · simp [hf]
  · simp [hf]
  · exact absurd hfail h
  · simp [hf]
  · simp [hf]

theorem failureExplained_congr {r r' : Recognizer} (herr : r'.err = r.err) (hbyte : r'.errByte = r.errByte)
    (hr : FailureExplained r) : FailureExplained r' := by
  unfold FailureExplained
  rwa [herr, hbyte]

theorem failureExplained_feedByte {r : Recognizer} (hr : FailureExplained r) (depth : Option Nat) (b : Byte) :
    FailureExplained (feedByte depth b r) := by
  by_cases hfail : FailsAwaited b r
  · rw [feedByte_of_failsAwaited depth hfail]
    simp [FailureExplained]
  · obtain ⟨herr, hbyte⟩ := feedByte_keeps_failure hfail depth
    exact failureExplained_congr herr hbyte hr

theorem failureExplained_armExchange (isRead : Bool) (cmdId : Nat) (r : Recognizer) :
    FailureExplained (armExchange isRead cmdId r) := by
  simp [FailureExplained, armExchange_eq]

theorem failureExplained_hostTimeout {r : Recognizer} (hr : FailureExplained r) :
    FailureExplained (hostTimeout r) := by
  obtain ⟨-, h⟩ | ⟨-, h⟩ := hostTimeout_cases r <;> rw [h]
  · simp [FailureExplained]
  · exact hr

/-- Settles O45: a failing byte records itself beside its own code, `TIMEOUT` records no byte, and `ARM` clears both. -/
theorem stepKeepsFailuresExplained : Obligations.StepKeepsFailuresExplained := by
  intro s t hs h
  exact step_keeps (P := fun _ r => FailureExplained r) (fun cfg b _ hr => failureExplained_feedByte hr cfg.logDepth b)
    (fun _ => failureExplained_armExchange) (fun _ _ => failureExplained_hostTimeout) hs h

/-! ## The causes of each code (R152) -/

/-- An instruction either fails the exchange, by a byte or as `TIMEOUT`, or it leaves a recognizer without a recorded failure
without one. -/
theorem recogAfter_failure_cases (i : Instr) (cfg : Config) {r : Recognizer} (hr : r.err = .none) :
    (∃ b, receivedByte i = some b ∧ FailsAwaited b r ∧
      recogAfter i cfg r = takeFailure (failCode b) (some b) (appendLog cfg.logDepth b r)) ∨
    (i = .timeout ∧ r.st ≠ .complete ∧ recogAfter i cfg r = takeFailure .timeout none r) ∨
    ((∀ b, receivedByte i = some b → ¬ FailsAwaited b r) ∧ (i = .timeout → r.st = .complete) ∧
      (recogAfter i cfg r).err = .none) := by
  obtain hi | ⟨b, hb⟩ | ⟨isRead, cmdId, rfl⟩ | rfl := instr_kinds i
  · have ⟨hbyte, _, ht⟩ := hi
    exact .inr (.inr ⟨by simp [hbyte], (absurd · ht), by rw [recogAfter_of_encoderSide hi, hr]⟩)
  · rw [recogAfter_of_receivedByte hb]
    by_cases hfail : FailsAwaited b r
    · exact .inl ⟨b, hb, hfail, feedByte_of_failsAwaited _ hfail⟩
    · have hnotTimeout : i ≠ .timeout := by rintro rfl; cases hb
      exact .inr (.inr ⟨by simpa [hb] using hfail, (absurd · hnotTimeout),
        (feedByte_keeps_failure hfail _).1.trans hr⟩)
  · exact .inr (.inr ⟨nofun, nofun, rfl⟩)
  · by_cases hst : r.st = .complete
    · exact .inr (.inr ⟨nofun, fun _ => hst, by rw [recogAfter_timeout, hostTimeout_of_complete hst, hr]⟩)
    · exact .inr (.inl ⟨rfl, hst, hostTimeout_of_waiting hst⟩)

section
variable {i : Instr} {cfg : Config} {r : Recognizer}

/-- A code other than that of the timeout is recorded by the failing bytes that have it (R126). -/
theorem recogAfter_err_iff_of_byte (hr : r.err = .none) {code : ErrCode} (hnone : code ≠ .none)
    (htimeout : code ≠ .timeout) :
    (recogAfter i cfg r).err = code ↔ ∃ b, receivedByte i = some b ∧ failCode b = code ∧ FailsAwaited b r := by
  obtain ⟨b, hb, hfail, h⟩ | ⟨rfl, -, h⟩ | ⟨hbyte, -, herr⟩ := recogAfter_failure_cases i cfg hr
  · simp [h, hb, hfail]
  · simp [h, receivedByte, htimeout.symm]
  · rw [herr]
    refine ⟨fun h => absurd h.symm hnone, ?_⟩
    rintro ⟨b, hb, -, hfail⟩
    exact absurd hfail (hbyte b hb)

/-- The timeout's code is recorded by `TIMEOUT` alone, and only while something is awaited (R129, D10). -/
theorem recogAfter_err_eq_timeout_iff (hr : r.err = .none) :
    (recogAfter i cfg r).err = .timeout ↔ i = .timeout ∧ r.st ≠ .complete := by
  obtain ⟨b, hb, -, h⟩ | ⟨rfl, hst, h⟩ | ⟨-, ht, herr⟩ := recogAfter_failure_cases i cfg hr
  · have hnotTimeout : i ≠ .timeout := by rintro rfl; cases hb
    simp [h, hnotTimeout]
  · simp [h, hst]
  · simpa [herr] using ht

/-- A newly recorded failure completes the exchange without success, beside the byte that caused it (R126, R159, D8). -/
theorem recogAfter_of_err_ne_none (hr : r.err = .none) (herr : (recogAfter i cfg r).err ≠ .none) :
    (recogAfter i cfg r).st = .complete ∧ (recogAfter i cfg r).success = false ∧
    (recogAfter i cfg r).errByte = receivedByte i := by
  obtain ⟨b, hb, -, h⟩ | ⟨rfl, -, h⟩ | ⟨-, -, hnone⟩ := recogAfter_failure_cases i cfg hr
  · rw [h, hb]
    exact ⟨rfl, rfl, rfl⟩
  · rw [h]
    exact ⟨rfl, rfl, rfl⟩
  · exact absurd hnone herr

end

theorem failCode_eq_disconnected_iff {b : Byte} : failCode b = .disconnected ↔ b = 0x44 := by
  rw [failCode_eq]
  split_ifs with hdisconn hcomms
  · simp [hdisconn]
  · simpa using hdisconn
  · simpa using hdisconn

theorem failCode_eq_comms_iff {b : Byte} : failCode b = .comms ↔ b = 0x54 ∨ b = 0x46 ∨ b = 0x43 := by
  rw [failCode_eq]
  split_ifs with hdisconn hcomms
  · simp [hdisconn]
  · simpa using hcomms
  · simpa using hcomms

theorem failCode_eq_protocol_iff {b : Byte} : failCode b = .protocol ↔ b ∉ [(0x44 : Byte), 0x54, 0x46, 0x43] := by
  have hmem : b ∈ [(0x44 : Byte), 0x54, 0x46, 0x43] ↔ b = 0x44 ∨ b = 0x54 ∨ b = 0x46 ∨ b = 0x43 := by simp
  rw [hmem, ← failCode_eq_comms_iff, ← failCode_eq_disconnected_iff]
  obtain h | h | h := failCode_cases b <;> simp [h]

/-- A byte that is neither progress token fails in either state that waits for a token (D7). -/
theorem failsAwaited_iff_of_ne {b : Byte} {r : Recognizer} (hack : b ≠ tokInproc) (hresult : b ≠ tokSuccess) :
    FailsAwaited b r ↔ r.st = .awaitingAck ∨ r.st = .awaitingResult := by
  simp [FailsAwaited, hack, hresult]

/-- A byte with a given code fails where a token is awaited, whichever of the values with that code it is. -/
theorem failingByte_iff {i : Instr} {r : Recognizer} {code : ErrCode} {P : Byte → Prop}
    (hcode : ∀ b, failCode b = code ↔ P b) (hne : ∀ b, P b → b ≠ tokInproc ∧ b ≠ tokSuccess) :
    (∃ b, receivedByte i = some b ∧ failCode b = code ∧ FailsAwaited b r) ↔
      (∃ b, receivedByte i = some b ∧ P b) ∧ (r.st = .awaitingAck ∨ r.st = .awaitingResult) := by
  constructor
  · rintro ⟨b, hb, hc, hfail⟩
    have hP := (hcode b).mp hc
    obtain ⟨hack, hresult⟩ := hne b hP
    exact ⟨⟨b, hb, hP⟩, (failsAwaited_iff_of_ne hack hresult).mp hfail⟩
  · rintro ⟨⟨b, hb, hP⟩, hst⟩
    obtain ⟨hack, hresult⟩ := hne b hP
    exact ⟨b, hb, (hcode b).mpr hP, (failsAwaited_iff_of_ne hack hresult).mpr hst⟩

/-- Settles O40: the bytes of each code are read off `failCode`, and which of them fail where off `FailsAwaited`. -/
theorem failuresHaveExactlyTheirCauses : Obligations.FailuresHaveExactlyTheirCauses := by
  intro i s t h hs
  rw [(exec_next h).1]
  refine ⟨?_, ?_, ?_, recogAfter_err_eq_timeout_iff hs, recogAfter_of_err_ne_none hs⟩
  · rw [recogAfter_err_iff_of_byte (code := .disconnected) hs nofun nofun,
      failingByte_iff (fun _ => failCode_eq_disconnected_iff) (by decide)]
    simp
  · rw [recogAfter_err_iff_of_byte (code := .comms) hs nofun nofun,
      failingByte_iff (fun _ => failCode_eq_comms_iff) (by decide)]
    simp [and_or_left, exists_or]
  · rw [recogAfter_err_iff_of_byte (code := .protocol) hs nofun nofun]
    simp only [failCode_eq_protocol_iff]
    rfl

/-! ## The strobes of one sampling (R157) -/

/-- The events of a sampling in the order of R157 (decision D2). -/
def strobeEvents (p : Strobes) : List Instr :=
  (if p.rxValid then [Instr.feed p.rxByte] else []) ++ (if p.timeout then [Instr.timeout] else []) ++
    (if p.arm then [Instr.arm p.armIsRead p.armCmdId] else [])

/-- What a sampling leaves at the ports: itself while a strobe of it is active. -/
def pending (p : Strobes) : List Stimulus := if p.rxValid || p.timeout || p.arm then [.strobes p] else []

theorem remaining_strobes (p : Strobes) : remaining (.strobes p) = pending p.rest := rfl

/-- The decoder takes the first event of the sampling and leaves the others; a token's byte reads as the token's row, which
is `FEED` of that byte. -/
structure TakesFirst (p : Strobes) (event read : Instr) : Prop where
  strobeEvents_eq : strobeEvents p = event :: strobeEvents p.rest
  pending_eq : pending p = [.strobes p]
  decode_eq : decode (.strobes p) = .ok read
  exec_read : ∀ s, exec read s = exec event s
  isEvent : ¬ IsEncoderSide event

/-- A sampling has no strobe active, or its first event can be taken: that of `rx_valid`, of `timeout` or of `arm`. -/
theorem strobeEvents_cases (p : Strobes) :
    (strobeEvents p = [] ∧ pending p = []) ∨ ∃ event read, TakesFirst p event read := by
  cases hrx : p.rxValid with
  | true =>
    refine .inr ⟨.feed p.rxByte, decodeRx p.rxByte, ?_, ?_, ?_, fun s => ?_, by simp [IsEncoderSide, receivedByte]⟩
    · simp [strobeEvents, Strobes.rest, hrx]
    · simp [pending, hrx]
    · simp [decode, decodeStrobes, hrx]
    · obtain ⟨-, -, -, hexec⟩ := tokenRowsAreFeedOfTheirByte p.rxByte s
      exact hexec
  | false =>
    cases ht : p.timeout with
    | true =>
      refine .inr ⟨.timeout, .timeout, ?_, ?_, ?_, fun _ => rfl, by simp [IsEncoderSide]⟩
      · simp [strobeEvents, Strobes.rest, hrx, ht]
      · simp [pending, ht]
      · simp [decode, decodeStrobes, hrx, ht]
    | false =>
      cases ha : p.arm with
      | true =>
        refine .inr ⟨.arm p.armIsRead p.armCmdId, .arm p.armIsRead p.armCmdId, ?_, ?_, ?_, fun _ => rfl,
          by simp [IsEncoderSide, isArm]⟩
        · simp [strobeEvents, Strobes.rest, hrx, ht, ha]
        · simp [pending, ha]
        · simp [decode, decodeStrobes, hrx, ht, ha]
      | false => exact .inl ⟨by simp [strobeEvents, hrx, ht, ha], by simp [pending, hrx, ht, ha]⟩

/-- The step on a sampling is its first event in full, with the other strobes left in front (R157). -/
theorem TakesFirst.step_pending {p : Strobes} {event read : Instr} (h : TakesFirst p event read) (s : State) :
    ∃ t, exec event s = .next t ∧
      step (s.withInputs (pending p ++ s.inputs)) = .next (t.withInputs (pending p.rest ++ t.inputs)) := by
  refine ⟨_, exec_of_event h.isEvent s, ?_⟩
  have hin : (s.withInputs (pending p ++ s.inputs)).inputs = .strobes p :: s.inputs := by simp [h.pending_eq]
  rw [stepRunsTheDecodedInstruction _ _ _ _ hin h.decode_eq, h.exec_read, exec_of_event h.isEvent, remaining_strobes]
  rfl

theorem run_succ_of_step {s t : State} (h : step s = .next t) (k : Nat) :
    Host.Core.run core (k + 1) s = Host.Core.run core k t := by
  have hcore : core.step s = .next t := h
  simp only [Host.Core.run, hcore]

/-- A sampling in front of the other stimuli runs its events one a step, each on the state left by the one before, by
induction on the events. -/
theorem run_pending {events : List Instr} : ∀ (p : Strobes) (s : State), strobeEvents p = events →
    Host.Core.run core events.length (s.withInputs (pending p ++ s.inputs)) = runEvents events s := by
  induction events with
  | nil =>
    intro p s hp
    obtain ⟨-, hpending⟩ | ⟨event, read, hfirst⟩ := strobeEvents_cases p
    · rw [hpending]
      rfl
    · cases hp.symm.trans hfirst.strobeEvents_eq
  | cons event events ih =>
    intro p s hp
    obtain ⟨hnone, -⟩ | ⟨event', read, hfirst⟩ := strobeEvents_cases p
    · cases hp.symm.trans hnone
    · obtain ⟨rfl, hrest⟩ := List.cons.inj (hp.symm.trans hfirst.strobeEvents_eq)
      obtain ⟨t, hexec, hstep⟩ := hfirst.step_pending s
      rw [List.length_cons, run_succ_of_step hstep, runEvents_cons hexec, ih p.rest t hrest.symm]

/-- Settles O26: the steps taken on a sampling are the run of its events, and every run answers a next state. -/
theorem sameCycleStrobesAreAppliedInOrder : Obligations.SameCycleStrobesAreAppliedInOrder := by
  intro s p rest hin events hne
  obtain ⟨t, hrun, -⟩ := runEvents_recog events (s.withInputs rest)
  have hpending : pending p = [.strobes p] := by
    obtain ⟨hnone, -⟩ | ⟨event, read, hfirst⟩ := strobeEvents_cases p
    · exact absurd hnone hne
    · exact hfirst.pending_eq
  have hs : (s.withInputs rest).withInputs (pending p ++ rest) = s := by
    rw [hpending, List.singleton_append, ← hin]
    rfl
  have hsteps := run_pending p (s.withInputs rest) (events := events) rfl
  rw [withInputs_inputs, hs, hrun] at hsteps
  exact ⟨t, hrun, hsteps⟩

end Sys2Proof.Machine
end

section
/-! PROOFS. An exchange armed against its frame's direction (R187). -/

namespace Sys2Proof.Machine

section
variable {st : SeqState} {isRead : Bool} {cmdId : Nat} {r : Recognizer}

/-- The byte after a write's result is spurious and the success before it stands (R125, R128). -/
theorem Awaits.spurious_after_resultOfWrite (hr : Awaits .awaitingResult false cmdId r) (depth : Option Nat) (p : Byte) :
    let t := feedByte depth p (feedByte depth tokSuccess r)
    t.st = .complete ∧ t.success = true ∧ t.payload = none ∧ t.spurious = true := by
  have hdone := feedByte_resultOfWrite depth hr.st_eq hr.armedIsRead_eq
  have hst : (feedByte depth tokSuccess r).st = .complete := by rw [hdone]
  rw [feedByte_spurious hst, hdone]
  simp [hr.payload_eq]

/-- `TIMEOUT` fails an awaited exchange and leaves it without a payload (R129). -/
theorem Awaits.outcome_of_hostTimeout (hr : Awaits st isRead cmdId r) (hst : st ≠ .complete) :
    outcomeOf (hostTimeout r) =
      { success := false, isComplete := true, err := .timeout, errByte := none, payload := none, cmdId := cmdId } := by
  rw [hostTimeout_of_waiting (by rwa [hr.st_eq])]
  simp [outcomeOf, isComplete, hr.payload_eq, hr.cmdId_eq]

end

/-- Settles O57: armed as a write the exchange is complete when the payload byte comes; armed as a read it still awaits the
payload when `TIMEOUT` comes. -/
theorem readFlagMismatchLosesTheResult : Obligations.ReadFlagMismatchLosesTheResult := by
  intro s cmdId p
  have hresult (rd : Bool) := (awaits_armExchange rd cmdId s.recog).ack s.cfg.logDepth
  have hpayload := (hresult true).resultOfRead s.cfg.logDepth
  constructor
  · obtain ⟨t, hrun, ht⟩ := runEvents_recog [.arm false cmdId, .tInproc, .tSuccess, .feed p] s
    refine ⟨t, hrun, ?_⟩
    rw [ht]
    exact (hresult false).spurious_after_resultOfWrite _ p
  · obtain ⟨t, hrun, ht⟩ := runEvents_recog [.arm true cmdId, .tInproc, .tSuccess, .timeout] s
    have hout := hpayload.outcome_of_hostTimeout (by decide)
    refine ⟨t, hrun, ?_⟩
    rw [ht]
    exact ⟨hostTimeout_st _, congrArg (·.success) hout, congrArg (·.err) hout, congrArg (·.payload) hout⟩

end Sys2Proof.Machine
end
